-- ==== Sys2Proof/Word.lean ====
section
/-!
DEFINITION. The word types of the SSP crypto block (00_scope.md R11): bytes of the windows, 32-bit bus words and
registers, 64-bit prime candidates. Every integer is unsigned.
-/
namespace Sys2Proof

/-- A byte of a key, block, seed or window (R11: an 8-bit unsigned value). -/
abbrev Byte := BitVec 8

/-- A bus word, which is also the width of a register and of a command (R22, R61, R80). -/
abbrev Word := BitVec 32

/-- The 16-bit values: lengths (R29, R30) and checksums (R140). -/
abbrev Half := BitVec 16

/-- The prime unit's candidates and bases (R8, R33: 64 bits, unsigned). -/
abbrev Cand := BitVec 64

end Sys2Proof
end

