-- ==== Sys2Proof/Syntax.lean ====
section
/-!
DEFINITION. The commands of the block: one constructor per row of spec/opcode_table.json (30_encoding.md R82), and the
names under which a word that is no command is rejected (R84).
-/
namespace Sys2Proof

/-- The eleven commands of R82. A command has no operand fields (R81): every operand is in a fixed register. -/
inductive Instr where
  /-- AES_ENC_BLK, OP 0x01 (R115). -/
  | aesEncBlk
  /-- AES_DEC_BLK, OP 0x02 (R116). -/
  | aesDecBlk
  /-- CK_CALC, OP 0x08 (R144). -/
  | ckCalc
  /-- CK_VERIFY, OP 0x09 (R145). -/
  | ckVerify
  /-- PACKING_LEN, OP 0x10 (R173). -/
  | packingLen
  /-- ENV_ENCRYPT, OP 0x11 (R174). -/
  | envEncrypt
  /-- ENV_DECRYPT, OP 0x12 (R176). -/
  | envDecrypt
  /-- RNG_SEED, OP 0x20 (R212). -/
  | rngSeed
  /-- RNG_ENTROPY, OP 0x21 (R213). -/
  | rngEntropy
  /-- PRIME_TEST, OP 0x22 (R223). -/
  | primeTest
  /-- PRIME_GEN, OP 0x23 (R225). -/
  | primeGen
  deriving DecidableEq, Repr

/-- Why a word or a byte sequence is no command (R84, R86). The first two are the spec's ILLEGAL. -/
inductive Reject where
  /-- RSV, bits 31:8, is not zero. -/
  | reservedBits
  /-- RSV is zero and OP is outside the map of R82. -/
  | unknownOp (op : Byte)
  /-- Fewer than the four bytes of a command word (R86): only a byte sequence can be so, never a bus word. -/
  | truncated
  deriving DecidableEq, Repr

end Sys2Proof
end

