-- ==== Sys2Proof/WellFormed.lean ====
section
/-!
DEFINITION. What makes a 32-bit word a command word (30_encoding.md R80, R82, R84), as two checks of its own that do
not go through the decoder, and the (empty) well-formedness of a command as syntax (R81).
-/
namespace Sys2Proof

/-- RSV, bits 31:8, must be 0 (R80). -/
def wordRsvZero (w : Word) : Bool := w.toNat / 256 == 0

/-- The OP values of R82. -/
def definedOps : List Nat := [0x01, 0x02, 0x08, 0x09, 0x10, 0x11, 0x12, 0x20, 0x21, 0x22, 0x23]

/-- OP, bits 7:0, is in the map of R82; every other value is reserved (R84). -/
def wordOpDefined (w : Word) : Bool := definedOps.contains (w.toNat % 256)

/-- A word that decodes to a command: no hint, custom or no-op encodings exist beside the map (R84). -/
def wordWellFormed (w : Word) : Bool := wordRsvZero w && wordOpDefined w

/-- A command carries no immediates, register numbers or modes (R81), so every term of `Instr` is well formed. -/
def Instr.wellFormed : Instr → Bool
  | .aesEncBlk | .aesDecBlk | .ckCalc | .ckVerify | .packingLen | .envEncrypt | .envDecrypt
  | .rngSeed | .rngEntropy | .primeTest | .primeGen => true

end Sys2Proof
end

