-- ==== Sys2Proof/Decode.lean ====
section
/-!
DEFINITION. The decoder of 30_encoding.md R83, total on every word and on every byte sequence, rejecting by name; the
encoder of R82 and R89; and the host's view of the opcode table's words.
-/
namespace Sys2Proof

/-- The bus word whose bytes, lowest address first, are b0 b1 b2 b3 (20_memory.md R62). -/
def leWord (b0 b1 b2 b3 : Byte) : Word := b3 ++ b2 ++ b1 ++ b0

/-- OP, bits 7:0 of a command word (R80). -/
def wordOp (w : Word) : Byte := w.extractLsb' 0 8

/-- RSV, bits 31:8 of a command word (R80). -/
def wordRsv (w : Word) : BitVec 24 := w.extractLsb' 8 24

/-- The opcode map of R82, R83. -/
def decodeOp (op : Byte) : Except Reject Instr :=
  match op.toNat with
  | 0x01 => .ok .aesEncBlk
  | 0x02 => .ok .aesDecBlk
  | 0x08 => .ok .ckCalc
  | 0x09 => .ok .ckVerify
  | 0x10 => .ok .packingLen
  | 0x11 => .ok .envEncrypt
  | 0x12 => .ok .envDecrypt
  | 0x20 => .ok .rngSeed
  | 0x21 => .ok .rngEntropy
  | 0x22 => .ok .primeTest
  | 0x23 => .ok .primeGen
  | _ => .error (.unknownOp op)

/-- `decode(w)` of R83; the spec's ILLEGAL is the two rejections a word can meet. -/
def decode (w : Word) : Except Reject Instr :=
  if wordRsv w ≠ 0 then .error .reservedBits else decodeOp (wordOp w)

/-- A command is the first four bytes, the lowest-addressed in bits 7:0 (R62, R86); the rest is handed back. -/
def decodeBytes : List Byte → Except Reject (Instr × List Byte)
  | b0 :: b1 :: b2 :: b3 :: rest =>
    match decode (leWord b0 b1 b2 b3) with
    | .ok i => .ok (i, rest)
    | .error r => .error r
  | _ => .error .truncated

/-- The OP of a command (R82). -/
def Instr.op : Instr → Byte
  | .aesEncBlk => 0x01
  | .aesDecBlk => 0x02
  | .ckCalc => 0x08
  | .ckVerify => 0x09
  | .packingLen => 0x10
  | .envEncrypt => 0x11
  | .envDecrypt => 0x12
  | .rngSeed => 0x20
  | .rngEntropy => 0x21
  | .primeTest => 0x22
  | .primeGen => 0x23

/-- The word that submits a command, `zext_32(OP)` (R89). -/
def encode (i : Instr) : Word := i.op.setWidth 32

/-- The four bytes of bits `w`, as the hardware lays a word out (R62). -/
def tableBytes (nbits w : Nat) : List Byte :=
  (List.range 4).map fun k => BitVec.ofNat 8 ((w % 2 ^ nbits) >>> (8 * k))

/-- What the decoder reads from an opcode-table word of `nbits` bits; bits above `nbits` are 0. -/
def decodeTableWord (nbits w : Nat) : Option Instr :=
  match decodeBytes (tableBytes nbits w) with
  | .ok (i, _) => some i
  | .error _ => none

end Sys2Proof
end

