-- ==== Sys2Proof/Config.lean ====
section
/-!
DEFINITION. The implementation parameters of 00_scope.md R9, which the spec leaves open, and the free values of
93_implementation_defined.md U1 and U2. The machine's own choice of them is the opaque constant `config`: no proof can
see what it is. Every operation takes a `Config`, so a test can run it under a binding of 95_test_vectors.md.
-/
namespace Sys2Proof

/-- The state of the prime unit's CSPRNG stream, the spec's opaque type RngState (43_prime.md R211), as plain data:
a number that codes it. DESIGN CHOICE (log 6). -/
structure RngState where
  code : Nat
  deriving DecidableEq, Repr, Inhabited

/-- The parameters a model takes as arguments (R9). Two have a default the spec states (93_implementation_defined.md U8):
a Config that does not name them has it. -/
structure Config where
  /-- BASE, the bus address of the register space (R9, R22). -/
  base : Nat
  /-- MAX_ENCRYPTED_DATA; `MED <= 255` (R9, R161). -/
  med : Fin 256
  /-- START_MARKER (R9, R160). -/
  startMarker : Byte
  /-- CK16, the checksum algorithm: total, deterministic, nothing else assumed (R140). -/
  ck16 : List Byte → Half
  /-- CK_ENV_START, the first envelope byte the envelope checksum covers, 0 or 1; decision default 1 (R9, R165). -/
  ckEnvStart : Fin 2 := 1
  /-- What SMALL_PRIMES holds beyond 2, 3, 5 and 7; `smallPrimes` makes a legal table of it (R9, R217; log 8). -/
  smallPrimesRest : List Nat
  /-- RNG_INIT, on the 32 bytes of a seed (R211). -/
  rngInit : List Byte → RngState
  /-- RNG_U64 (R211). -/
  rngU64 : RngState → Cand × RngState
  /-- RNG_RANGE before its law is imposed; `rngRange` imposes it (R211; log 8). -/
  rngRangeRaw : RngState → Cand → Cand → Cand × RngState
  /-- PAD_DET, on the envelope at step (a), the 4 counter bytes and a length (R171). -/
  padDet : List Byte → List Byte → (n : Nat) → Vector Byte n
  /-- HAS_ENTROPY, whether an entropy source is fitted (R9). -/
  hasEntropy : Bool
  /-- PRIME_MAX_ATTEMPTS, 0 for no cap; decision default 0 (R9, R224). -/
  primeMaxAttempts : Nat := 0
  /-- FREE VALUE: the k-th byte ever drawn from the entropy source (R12, R172; U2; log 4). -/
  entropy : Nat → Byte
  /-- FREE VALUE: the k-th word read from a pending command's write set (R66; U1; log 4). -/
  busyRead : Nat → Word
  deriving Inhabited

/-- The parameters of the machine at hand: nothing in Lean can evaluate them (R9; log 7). -/
opaque config : Config

end Sys2Proof
end

