-- ==== Sys2Proof/Machine/State.lean ====
section
/-!
DEFINITION. The state of the block as plain data: the record of 10_state.md R44, the byte arrays held as one canonical
list of cells, and the model's own bookkeeping; the state after reset (R47); the ways a step can stop.
-/
namespace Sys2Proof.Machine

/-- The byte arrays of the register space, as (offset, byte) cells; the canonical form is `Memory.wf` (Ops). -/
abbrev Memory := List Host.Cell

/-- CTRL.PAD_MODE: the three values WARL admits (10_state.md R25). -/
inductive PadMode where
  /-- 0 ZERO. -/
  | zero
  /-- 1 ENTROPY. -/
  | entropy
  /-- 2 DETERMINISTIC. -/
  | deterministic
  deriving DecidableEq, Repr

/-- The error codes a command can end with (60_exceptions.md R250). -/
inductive ErrorCode where
  /-- 0 OK. -/
  | ok
  /-- 1 ILLEGAL_CMD. -/
  | illegalCmd
  /-- 2 DATA_LEN. -/
  | dataLen
  /-- 3 FRAME_LEN. -/
  | frameLen
  /-- 4 CK_MISMATCH. -/
  | ckMismatch
  /-- 5 NOT_SEEDED. -/
  | notSeeded
  /-- 6 ATTEMPTS. -/
  | attempts
  deriving DecidableEq, Repr

/-- The width of a host access; only `word` is admitted (20_memory.md R61). -/
inductive AccessWidth where
  /-- 8 bits. -/
  | byte
  /-- 16 bits. -/
  | half
  /-- 32 bits, the one admitted form. -/
  | word
  /-- 64 bits. -/
  | double
  deriving DecidableEq, Repr

/-- One step of the total order of 20_memory.md R70, with the reset steps of 70_reset_and_hazards.md R280. -/
inductive Event where
  /-- A host read at a register-space offset. -/
  | read (width : AccessWidth) (off : Nat)
  /-- A host write at a register-space offset. Only a word write has an effect, so 32 bits of value are enough. -/
  | write (width : AccessWidth) (off : Nat) (v : Word)
  /-- The platform's reset input (R280). -/
  | reset
  /-- The engine's turn: its Complete step, if a command is pending (10_state.md R44). -/
  | engine
  /-- The host's polling loop (30_encoding.md R88): a word read of STATUS, again and again until it answers BUSY = 0, with
  a turn of the engine after each poll that answers BUSY = 1 (log 15). -/
  | wait
  deriving DecidableEq, Repr

/-- A PRIME_GEN loop in progress: the stream and the count of attempts made so far (43_prime.md R224; log 5). -/
structure Search where
  stream : RngState
  attempts : Nat
  deriving DecidableEq, Repr

/-- The state of the block (10_state.md R44), and the model's own bookkeeping after it. -/
structure State where
  /-- SEQ (R26). -/
  seq : Word
  /-- ECOUNT (R27). -/
  ecount : Word
  /-- DCOUNT (R28). -/
  dcount : Word
  /-- RESULT (R31). -/
  result : Word
  /-- ERRINFO (R32). -/
  errinfo : Word
  /-- DLEN.LEN (R29). -/
  dlen : Half
  /-- FLEN.LEN (R30). -/
  flen : Half
  /-- CAND (R33). -/
  cand : Cand
  /-- CTRL.IE (R25). -/
  ie : Bool
  /-- CTRL.PAD_MODE (R25). -/
  padMode : PadMode
  /-- STATUS.DONE (R24). -/
  done : Bool
  /-- STATUS.OVR (R24). -/
  ovr : Bool
  /-- STATUS.ERR (R24, R250). -/
  err : BitVec 4
  /-- KEY, BLK, SEED, DATA and FRAME, each at its offsets (R34 to R36, R38, R39; log 3). -/
  mem : Memory
  /-- The prime unit's stream (R41). -/
  prng : Option RngState
  /-- The command in flight (R42). -/
  pending : Option Word
  /-- The MODEL's own: a PRIME_GEN loop in progress (log 5). -/
  search : Option Search
  /-- The MODEL's own: how many entropy bytes were drawn so far (log 4). -/
  entropyDraws : Nat
  /-- The MODEL's own: how many arbitrary words were read so far (log 4). -/
  busyDraws : Nat
  /-- The MODEL's own: what the last host read was answered (log 2). -/
  readData : Option Word
  /-- The MODEL's own: the events still to come, in order (log 1). -/
  agenda : List Event
  deriving DecidableEq, Repr

/-- Why the machine stops. -/
inductive Fault where
  /-- BUS_ERROR, raised by a host access that is not an aligned 32-bit word below offset 0x1000 (20_memory.md R61,
  60_exceptions.md R254). Safe: the spec says that a model treats it as a fault, and that the block's state stays. -/
  | busError (width : AccessWidth) (off : Nat)
  deriving DecidableEq, Repr

/-- Why an instruction has no meaning. -/
inductive Refusal where
  /-- Raised by an arm of `exec` whose instruction the model does not have. Safe: nothing follows from it. No arm
  raises it now. -/
  | notModelled (mnemonic : String)
  deriving DecidableEq, Repr

/-- The state right after reset (10_state.md R47); the model's own fields start empty. -/
def State.reset : State where
  seq := 0
  ecount := 0
  dcount := 0
  result := 0
  errinfo := 0
  dlen := 0
  flen := 0
  cand := 0
  ie := false
  padMode := if config.hasEntropy then .entropy else .deterministic
  done := false
  ovr := false
  err := 0
  mem := []
  prng := none
  pending := none
  search := none
  entropyDraws := 0
  busyDraws := 0
  readData := none
  agenda := []

end Sys2Proof.Machine
end

