-- ==== Sys2Proof/Machine/Flags.lean ====
section
/-!
DEFINITION. The flag computations: error codes and which one STATUS.ERR takes (60_exceptions.md R250, R251), the words
STATUS and CTRL read as (20_memory.md R63), PAD_MODE's WARL rule (10_state.md R25), the interrupt output (R46).
-/
namespace Sys2Proof.Machine

/-- The number of an error code (R250). -/
def ErrorCode.bits : ErrorCode → BitVec 4
  | .ok => 0
  | .illegalCmd => 1
  | .dataLen => 2
  | .frameLen => 3
  | .ckMismatch => 4
  | .notSeeded => 5
  | .attempts => 6

/-- The priority of R251: ILLEGAL_CMD, NOT_SEEDED, DATA_LEN, FRAME_LEN, CK_MISMATCH, ATTEMPTS, highest first; no error
is below them all. -/
def ErrorCode.priority : ErrorCode → Nat
  | .illegalCmd => 6
  | .notSeeded => 5
  | .dataLen => 4
  | .frameLen => 3
  | .ckMismatch => 2
  | .attempts => 1
  | .ok => 0

/-- The code STATUS.ERR takes from the codes a rule recorded (R251). -/
def selectCode : List ErrorCode → ErrorCode
  | [] => .ok
  | c :: cs => if (selectCode cs).priority ≤ c.priority then c else selectCode cs

/-- `record Error(code)` when a condition holds (00_scope.md R12). -/
def recordIf (cond : Bool) (code : ErrorCode) : ErrorCode := if cond then code else .ok

/-- A flag as a register bit. -/
def flagBit (b : Bool) : Word := if b then 1 else 0

/-- BUSY = (pending != none) (R44). -/
def State.busy (s : State) : Bool := s.pending.isSome

/-- SEEDED = (prng != none) (R44). -/
def State.seeded (s : State) : Bool := s.prng.isSome

/-- What STATUS reads as (R24, R63). -/
def statusWord (s : State) : Word :=
  s.err.setWidth 32 <<< 8 ||| flagBit s.seeded <<< 3 ||| flagBit s.ovr <<< 2 ||| flagBit s.done <<< 1 ||| flagBit s.busy

/-- The value of the PAD_MODE field (R25). -/
def PadMode.bits : PadMode → BitVec 2
  | .zero => 0
  | .entropy => 1
  | .deterministic => 2

/-- What CTRL reads as: `padMode << 1 | ie` (R63). -/
def ctrlWord (s : State) : Word := s.padMode.bits.setWidth 32 <<< 1 ||| flagBit s.ie

/-- PAD_MODE after a write of the field: 3 leaves it, and so does 1 when HAS_ENTROPY is false (R25, WARL). -/
def warlPadMode (hasEntropy : Bool) (old : PadMode) (field : BitVec 2) : PadMode :=
  match field.toNat with
  | 0 => .zero
  | 1 => if hasEntropy then .entropy else old
  | 2 => .deterministic
  | _ => old

/-- The interrupt output, `IRQ = done and ie`, level-sensitive (R46, R259). -/
def State.irq (s : State) : Bool := s.done && s.ie

end Sys2Proof.Machine
end

