-- ==== Sys2Proof/Machine/Ops.lean ====
section
/-!
DEFINITION. The named operations over the byte arrays (reading, writing, the canonical form), the one way a command
ends (10_state.md R44, with `raise` and `record` of 00_scope.md R12), acceptance (R45), reset as an event (R280), and
the draws (R12, R66, R172). Errors are no traps (60_exceptions.md R253), so `complete` is all there is of an exception.
-/
namespace Sys2Proof.Machine

/-! ### The byte arrays -/

/-- What an unlisted offset reads as: 00, the reset content of every byte array (10_state.md R47; log 3). -/
def Memory.unlisted : Byte := 0

/-- The byte at a register-space offset. -/
def Memory.read : Memory → Nat → Byte
  | [], _ => Memory.unlisted
  | (a, b) :: m, x => if a = x then b else Memory.read m x

/-- The cells of consecutive bytes from an offset on, less those that need no cell. -/
def cellsFrom : Nat → List Byte → Memory
  | _, [] => []
  | a, b :: bs => if b = Memory.unlisted then cellsFrom (a + 1) bs else (a, b) :: cellsFrom (a + 1) bs

/-- Write consecutive bytes from an offset on; every other byte stays. -/
def Memory.writeBytes (m : Memory) (base : Nat) (bs : List Byte) : Memory :=
  m.filter (fun c => decide (c.1 < base)) ++ cellsFrom base bs ++ m.filter (fun c => decide (base + bs.length ≤ c.1))

/-- The canonical form: offsets strictly rising, and no cell that an unlisted offset would read as anyway. -/
abbrev Memory.wf (m : Memory) : Prop :=
  m.Pairwise (fun c d => c.1 < d.1) ∧ ∀ c ∈ m, c.2 ≠ Memory.unlisted

/-- The byte range `[base, base + n)` (00_scope.md R11). -/
def Memory.bytes (m : Memory) (base n : Nat) : List Byte := (List.range n).map fun i => m.read (base + i)

/-- The little-endian word at an offset (20_memory.md R62). -/
def Memory.readWord (m : Memory) (off : Nat) : Word :=
  leWord (m.read off) (m.read (off + 1)) (m.read (off + 2)) (m.read (off + 3))

/-- `LE32(v)`: the little-endian image of a 32-bit value (00_scope.md R11). -/
def le32 (v : Word) : List Byte :=
  [v.extractLsb' 0 8, v.extractLsb' 8 8, v.extractLsb' 16 8, v.extractLsb' 24 8]

/-- Store a little-endian word at an offset (20_memory.md R62). -/
def Memory.writeWord (m : Memory) (off : Nat) (v : Word) : Memory := m.writeBytes off (le32 v)

/-! ### Completion, acceptance, reset -/

/-- The end of every Complete step: `err <- code`, `done <- true`, `pending <- none` (R44). A `raise` is this at the
point of the raise, on the state with the effects listed before it (R12, R250). -/
def complete (code : ErrorCode) (s : State) : State :=
  { s with err := code.bits, done := true, pending := none, search := none }

/-- Acceptance: `pending <- some w`, `done <- false`, `err <- 0`, and nothing else the host can see (R45). -/
def accept (w : Word) (s : State) : State :=
  { s with pending := some w, done := false, err := 0, search := none }

/-- The reset event: every piece of the spec's state at its value of R47, a pending command abandoned (R280). The
events still to come stay, and so do the counts of draws made, since each draw is a fresh one (R172; log 4). -/
def resetEvent (s : State) : State :=
  { State.reset with agenda := s.agenda, entropyDraws := s.entropyDraws, busyDraws := s.busyDraws }

/-- Take the first event off the agenda (log 1). -/
def withAgenda (rest : List Event) (s : State) : State := { s with agenda := rest }

/-- Place a command word where the engine takes its next one from: accept it, with the engine's turn first (log 9). -/
def placeCommand (w : Word) (s : State) : State := withAgenda (.engine :: s.agenda) (accept w s)

/-! ### Draws -/

/-- `draw_entropy(n)`: the n bytes after those already drawn (R12, R172). -/
def entropyBytes (c : Config) (drawn n : Nat) : List Byte := (List.range n).map fun i => c.entropy (drawn + i)

end Sys2Proof.Machine
end

