-- ==== Sys2Proof/Machine/Operands.lean ====
section
/-!
DEFINITION. The operands of the commands: the byte arrays at their offsets (10_state.md R22, R34 to R39) and the
assembly of multi-byte values (00_scope.md R11, 20_memory.md R62). A command word itself carries none (R81).
-/
namespace Sys2Proof.Machine

/-- The offset of KEY (R34). -/
def keyBase : Nat := 0x040

/-- The offset of BLK (R35). -/
def blkBase : Nat := 0x050

/-- The offset of SEED (R36). -/
def seedBase : Nat := 0x060

/-- The offset of the DATA window (R38). -/
def dataBase : Nat := 0x100

/-- The offset of the FRAME window (R39). -/
def frameBase : Nat := 0x200

/-- The size of the DATA window (R10, R38). -/
def dataSize : Nat := 256

/-- The size of the FRAME window (R10, R39). -/
def frameSize : Nat := 512

/-- `KEY[0..16)` (R34). -/
def State.keyBytes (s : State) : List Byte := s.mem.bytes keyBase 16

/-- `BLK[0..16)` (R35). -/
def State.blkBytes (s : State) : List Byte := s.mem.bytes blkBase 16

/-- `SEED[0..32)` (R36). -/
def State.seedBytes (s : State) : List Byte := s.mem.bytes seedBase 32

/-- `DATA[0..n)` (R38). -/
def State.dataBytes (s : State) (n : Nat) : List Byte := s.mem.bytes dataBase n

/-- `FRAME[0..n)` (R39). -/
def State.frameBytes (s : State) (n : Nat) : List Byte := s.mem.bytes frameBase n

/-- `LE16(v)`: low byte first (00_scope.md R11, 41_checksum.md R142). -/
def le16 (v : Half) : List Byte := [v.extractLsb' 0 8, v.extractLsb' 8 8]

/-- The 16-bit value whose little-endian image is these two bytes (R11, R142). -/
def fromLE16 (lo hi : Byte) : Half := hi ++ lo

/-- A 64-bit value from its bits 63:32 and 31:0, as CAND is `CAND_HI ++ CAND_LO` (R33). -/
def joinWords (hi lo : Word) : Cand := hi ++ lo

/-- A 32-bit value from its bits 31:16 and 15:0, as RESULT holds two checksums (42_envelope.md R176). -/
def joinHalves (hi lo : Half) : Word := hi ++ lo

/-- n zero bytes (R11). -/
def zeros (n : Nat) : List Byte := List.replicate n 0

end Sys2Proof.Machine
end

