-- ==== Sys2Proof/Machine/Bus.lean ====
section
/-!
DEFINITION. The host's side of the block: the register map (10_state.md R22), the admitted access (20_memory.md R61),
reads (R63, R66), writes while IDLE (R64) and while BUSY (R67).
-/
namespace Sys2Proof.Machine

/-- The registers and windows of R22; each offset the map does not name is `reserved`. -/
inductive Reg where
  /-- 0x000. -/
  | cmd
  /-- 0x004. -/
  | status
  /-- 0x008. -/
  | ctrl
  /-- 0x00C. -/
  | seq
  /-- 0x010. -/
  | ecount
  /-- 0x014. -/
  | dcount
  /-- 0x018. -/
  | dlen
  /-- 0x01C. -/
  | flen
  /-- 0x020. -/
  | result
  /-- 0x024. -/
  | errinfo
  /-- 0x028. -/
  | candLo
  /-- 0x02C. -/
  | candHi
  /-- 0x040 to 0x04F. -/
  | key
  /-- 0x050 to 0x05F. -/
  | blk
  /-- 0x060 to 0x07F. -/
  | seed
  /-- 0x080. -/
  | id
  /-- 0x100 to 0x1FF. -/
  | data
  /-- 0x200 to 0x3FF. -/
  | frame
  /-- 0x030 to 0x03F, 0x084 to 0x0FF, 0x400 to 0xFFF (R40). -/
  | reserved
  deriving DecidableEq, Repr

/-- The size of the register space (R22, R60). -/
def spaceSize : Nat := 0x1000

/-- The offset of STATUS (R22). -/
def statusOffset : Nat := 0x004

/-- The offset of a bus address in the register space at BASE, if it lies there (R9, R60; log 10). -/
def busOffset (base addr : Nat) : Option Nat :=
  if base ≤ addr ∧ addr < base + spaceSize then some (addr - base) else none

/-- The register or window a word offset names (R22). -/
def regAt (off : Nat) : Reg :=
  if off < 0x030 then
    match off / 4 with
    | 0 => .cmd
    | 1 => .status
    | 2 => .ctrl
    | 3 => .seq
    | 4 => .ecount
    | 5 => .dcount
    | 6 => .dlen
    | 7 => .flen
    | 8 => .result
    | 9 => .errinfo
    | 10 => .candLo
    | _ => .candHi
  else if off < 0x040 then .reserved
  else if off < 0x050 then .key
  else if off < 0x060 then .blk
  else if off < 0x080 then .seed
  else if off < 0x084 then .id
  else if off < 0x100 then .reserved
  else if off < 0x200 then .data
  else if off < 0x400 then .frame
  else .reserved

/-- The one access form the block admits: an aligned 32-bit word below offset 0x1000 (R61). -/
def admitted (width : AccessWidth) (off : Nat) : Bool :=
  decide (width = .word ∧ off % 4 = 0 ∧ off < spaceSize)

/-- The constant ID: 'S' 'S' 'P' 01 (00_scope.md R2, 10_state.md R37). -/
def idValue : Word := 0x01505353

/-- What a read returns outside the hazard of R66 (R63). -/
def regValue (s : State) (off : Nat) : Word :=
  match regAt off with
  | .cmd | .key | .seed | .reserved => 0
  | .status => statusWord s
  | .ctrl => ctrlWord s
  | .seq => s.seq
  | .ecount => s.ecount
  | .dcount => s.dcount
  | .dlen => s.dlen.setWidth 32
  | .flen => s.flen.setWidth 32
  | .result => s.result
  | .errinfo => s.errinfo
  | .candLo => s.cand.extractLsb' 0 32
  | .candHi => s.cand.extractLsb' 32 32
  | .id => idValue
  | .blk | .data | .frame => s.mem.readWord off

/-- The write set of each command, less STATUS, which always reads exactly (R66), and the hidden prng: the lists of
R115, R116, R144, R145, R173, R174, R176, R212, R213, R223, R225. -/
def writeSet : Instr → List Reg
  | .aesEncBlk => [.blk]
  | .aesDecBlk => [.blk]
  | .ckCalc => [.result]
  | .ckVerify => [.result]
  | .packingLen => [.result]
  | .envEncrypt => [.frame, .flen, .result, .ecount, .seq, .errinfo]
  | .envDecrypt => [.data, .dlen, .dcount, .result, .seq]
  | .rngSeed => []
  | .rngEntropy => []
  | .primeTest => [.result]
  | .primeGen => [.candLo, .candHi, .result]

/-- The write set of a command word; an illegal word's is empty (R66, R85). -/
def wordWriteSet (w : Word) : List Reg :=
  match decode w with
  | .ok i => writeSet i
  | .error _ => []

/-- A command is pending whose write set holds this offset's register (R66). -/
def inHazard (s : State) (off : Nat) : Bool :=
  match s.pending with
  | none => false
  | some w => (wordWriteSet w).contains (regAt off)

/-- An admitted read: the register's value, or any value at all under the hazard of R66; no other effect (R63). -/
def busRead (c : Config) (off : Nat) (s : State) : State :=
  if inHazard s off then { s with readData := some (c.busyRead s.busyDraws), busyDraws := s.busyDraws + 1 }
  else { s with readData := some (regValue s off) }

/-- A write of STATUS, BUSY or not: 1 clears DONE (bit 1) and OVR (bit 2) (R64, R67). -/
def writeStatus (v : Word) (s : State) : State :=
  { s with done := s.done && !v.getLsbD 1, ovr := s.ovr && !v.getLsbD 2 }

/-- A write of CTRL: IE from bit 0, PAD_MODE from bits 2:1 under WARL (R25, R64). -/
def writeCtrl (c : Config) (v : Word) (s : State) : State :=
  { s with ie := v.getLsbD 0, padMode := warlPadMode c.hasEntropy s.padMode (v.extractLsb' 1 2) }

/-- An admitted write while the engine is IDLE (R64). -/
def idleWrite (c : Config) (off : Nat) (v : Word) (s : State) : State :=
  match regAt off with
  | .cmd => accept v s
  | .status => writeStatus v s
  | .ctrl => writeCtrl c v s
  | .seq => { s with seq := v }
  | .ecount => { s with ecount := v }
  | .dlen => { s with dlen := v.extractLsb' 0 16 }
  | .flen => { s with flen := v.extractLsb' 0 16 }
  | .candLo => { s with cand := joinWords (s.cand.extractLsb' 32 32) v }
  | .candHi => { s with cand := joinWords v (s.cand.extractLsb' 0 32) }
  | .key | .blk | .seed | .data | .frame => { s with mem := s.mem.writeWord off v }
  | .dcount | .result | .errinfo | .id | .reserved => s

/-- An admitted write while the engine is BUSY: STATUS takes effect; what is read-only or reserved ignores it; every
other write is dropped and sets OVR (R67). -/
def busyWrite (off : Nat) (v : Word) (s : State) : State :=
  match regAt off with
  | .status => writeStatus v s
  | .dcount | .result | .errinfo | .id | .reserved => s
  | .cmd | .ctrl | .seq | .ecount | .dlen | .flen | .candLo | .candHi | .key | .blk | .seed | .data | .frame =>
    { s with ovr := true }

/-- An admitted write (R64, R67). -/
def busWrite (c : Config) (off : Nat) (v : Word) (s : State) : State :=
  if s.busy then busyWrite off v s else idleWrite c off v s

end Sys2Proof.Machine
end

