-- ==== Sys2Proof/Machine/Aes.lean ====
section
/-!
DEFINITION. AES-128 as 40_aes_block.md gives it (R102 to R114), and the commands AES_ENC_BLK and AES_DEC_BLK
(R115, R116).
-/
namespace Sys2Proof.Machine

/-- Four bytes: a column of the AES state from row 0 down (R103), or a word of the key schedule (R110). -/
structure Quad where
  r0 : Byte
  r1 : Byte
  r2 : Byte
  r3 : Byte
  deriving DecidableEq, Repr

/-- Sixteen bytes as four columns: the AES state `s[r][c]` (R103), or the round key of four schedule words (R109). -/
structure Block where
  c0 : Quad
  c1 : Quad
  c2 : Quad
  c3 : Quad
  deriving DecidableEq, Repr

/-! ### Field arithmetic and the S-boxes -/

/-- Multiplication by x modulo 0x11B (R102). -/
def xtime (b : Byte) : Byte := (b <<< 1) ^^^ (if b.getLsbD 7 then 0x1B else 0)

/-- `a • b`: the XOR over the set bits j of b of `xtime^j(a)`, for the lowest n bits of b (R102). -/
def gfMulBits : Nat → Byte → Byte → Byte
  | 0, _, _ => 0
  | n + 1, a, b => (if b.getLsbD 0 then a else 0) ^^^ gfMulBits n (xtime a) (b >>> 1)

/-- `a • b` (R102). -/
def gfMul (a b : Byte) : Byte := gfMulBits 8 a b

/-- Row X of the S-box table (R104). -/
def sboxRow (x : Nat) : List Byte :=
  match x with
  | 0 => [0x63, 0x7c, 0x77, 0x7b, 0xf2, 0x6b, 0x6f, 0xc5, 0x30, 0x01, 0x67, 0x2b, 0xfe, 0xd7, 0xab, 0x76]
  | 1 => [0xca, 0x82, 0xc9, 0x7d, 0xfa, 0x59, 0x47, 0xf0, 0xad, 0xd4, 0xa2, 0xaf, 0x9c, 0xa4, 0x72, 0xc0]
  | 2 => [0xb7, 0xfd, 0x93, 0x26, 0x36, 0x3f, 0xf7, 0xcc, 0x34, 0xa5, 0xe5, 0xf1, 0x71, 0xd8, 0x31, 0x15]
  | 3 => [0x04, 0xc7, 0x23, 0xc3, 0x18, 0x96, 0x05, 0x9a, 0x07, 0x12, 0x80, 0xe2, 0xeb, 0x27, 0xb2, 0x75]
  | 4 => [0x09, 0x83, 0x2c, 0x1a, 0x1b, 0x6e, 0x5a, 0xa0, 0x52, 0x3b, 0xd6, 0xb3, 0x29, 0xe3, 0x2f, 0x84]
  | 5 => [0x53, 0xd1, 0x00, 0xed, 0x20, 0xfc, 0xb1, 0x5b, 0x6a, 0xcb, 0xbe, 0x39, 0x4a, 0x4c, 0x58, 0xcf]
  | 6 => [0xd0, 0xef, 0xaa, 0xfb, 0x43, 0x4d, 0x33, 0x85, 0x45, 0xf9, 0x02, 0x7f, 0x50, 0x3c, 0x9f, 0xa8]
  | 7 => [0x51, 0xa3, 0x40, 0x8f, 0x92, 0x9d, 0x38, 0xf5, 0xbc, 0xb6, 0xda, 0x21, 0x10, 0xff, 0xf3, 0xd2]
  | 8 => [0xcd, 0x0c, 0x13, 0xec, 0x5f, 0x97, 0x44, 0x17, 0xc4, 0xa7, 0x7e, 0x3d, 0x64, 0x5d, 0x19, 0x73]
  | 9 => [0x60, 0x81, 0x4f, 0xdc, 0x22, 0x2a, 0x90, 0x88, 0x46, 0xee, 0xb8, 0x14, 0xde, 0x5e, 0x0b, 0xdb]
  | 10 => [0xe0, 0x32, 0x3a, 0x0a, 0x49, 0x06, 0x24, 0x5c, 0xc2, 0xd3, 0xac, 0x62, 0x91, 0x95, 0xe4, 0x79]
  | 11 => [0xe7, 0xc8, 0x37, 0x6d, 0x8d, 0xd5, 0x4e, 0xa9, 0x6c, 0x56, 0xf4, 0xea, 0x65, 0x7a, 0xae, 0x08]
  | 12 => [0xba, 0x78, 0x25, 0x2e, 0x1c, 0xa6, 0xb4, 0xc6, 0xe8, 0xdd, 0x74, 0x1f, 0x4b, 0xbd, 0x8b, 0x8a]
  | 13 => [0x70, 0x3e, 0xb5, 0x66, 0x48, 0x03, 0xf6, 0x0e, 0x61, 0x35, 0x57, 0xb9, 0x86, 0xc1, 0x1d, 0x9e]
  | 14 => [0xe1, 0xf8, 0x98, 0x11, 0x69, 0xd9, 0x8e, 0x94, 0x9b, 0x1e, 0x87, 0xe9, 0xce, 0x55, 0x28, 0xdf]
  | _ => [0x8c, 0xa1, 0x89, 0x0d, 0xbf, 0xe6, 0x42, 0x68, 0x41, 0x99, 0x2d, 0x0f, 0xb0, 0x54, 0xbb, 0x16]

/-- `Sbox(0xXY)` is in row X, column Y (R104). -/
def sbox (b : Byte) : Byte := (sboxRow (b.toNat / 16)).getD (b.toNat % 16) 0

/-- Row X of the inverse S-box table (R105). -/
def invSboxRow (x : Nat) : List Byte :=
  match x with
  | 0 => [0x52, 0x09, 0x6a, 0xd5, 0x30, 0x36, 0xa5, 0x38, 0xbf, 0x40, 0xa3, 0x9e, 0x81, 0xf3, 0xd7, 0xfb]
  | 1 => [0x7c, 0xe3, 0x39, 0x82, 0x9b, 0x2f, 0xff, 0x87, 0x34, 0x8e, 0x43, 0x44, 0xc4, 0xde, 0xe9, 0xcb]
  | 2 => [0x54, 0x7b, 0x94, 0x32, 0xa6, 0xc2, 0x23, 0x3d, 0xee, 0x4c, 0x95, 0x0b, 0x42, 0xfa, 0xc3, 0x4e]
  | 3 => [0x08, 0x2e, 0xa1, 0x66, 0x28, 0xd9, 0x24, 0xb2, 0x76, 0x5b, 0xa2, 0x49, 0x6d, 0x8b, 0xd1, 0x25]
  | 4 => [0x72, 0xf8, 0xf6, 0x64, 0x86, 0x68, 0x98, 0x16, 0xd4, 0xa4, 0x5c, 0xcc, 0x5d, 0x65, 0xb6, 0x92]
  | 5 => [0x6c, 0x70, 0x48, 0x50, 0xfd, 0xed, 0xb9, 0xda, 0x5e, 0x15, 0x46, 0x57, 0xa7, 0x8d, 0x9d, 0x84]
  | 6 => [0x90, 0xd8, 0xab, 0x00, 0x8c, 0xbc, 0xd3, 0x0a, 0xf7, 0xe4, 0x58, 0x05, 0xb8, 0xb3, 0x45, 0x06]
  | 7 => [0xd0, 0x2c, 0x1e, 0x8f, 0xca, 0x3f, 0x0f, 0x02, 0xc1, 0xaf, 0xbd, 0x03, 0x01, 0x13, 0x8a, 0x6b]
  | 8 => [0x3a, 0x91, 0x11, 0x41, 0x4f, 0x67, 0xdc, 0xea, 0x97, 0xf2, 0xcf, 0xce, 0xf0, 0xb4, 0xe6, 0x73]
  | 9 => [0x96, 0xac, 0x74, 0x22, 0xe7, 0xad, 0x35, 0x85, 0xe2, 0xf9, 0x37, 0xe8, 0x1c, 0x75, 0xdf, 0x6e]
  | 10 => [0x47, 0xf1, 0x1a, 0x71, 0x1d, 0x29, 0xc5, 0x89, 0x6f, 0xb7, 0x62, 0x0e, 0xaa, 0x18, 0xbe, 0x1b]
  | 11 => [0xfc, 0x56, 0x3e, 0x4b, 0xc6, 0xd2, 0x79, 0x20, 0x9a, 0xdb, 0xc0, 0xfe, 0x78, 0xcd, 0x5a, 0xf4]
  | 12 => [0x1f, 0xdd, 0xa8, 0x33, 0x88, 0x07, 0xc7, 0x31, 0xb1, 0x12, 0x10, 0x59, 0x27, 0x80, 0xec, 0x5f]
  | 13 => [0x60, 0x51, 0x7f, 0xa9, 0x19, 0xb5, 0x4a, 0x0d, 0x2d, 0xe5, 0x7a, 0x9f, 0x93, 0xc9, 0x9c, 0xef]
  | 14 => [0xa0, 0xe0, 0x3b, 0x4d, 0xae, 0x2a, 0xf5, 0xb0, 0xc8, 0xeb, 0xbb, 0x3c, 0x83, 0x53, 0x99, 0x61]
  | _ => [0x17, 0x2b, 0x04, 0x7e, 0xba, 0x77, 0xd6, 0x26, 0xe1, 0x69, 0x14, 0x63, 0x55, 0x21, 0x0c, 0x7d]

/-- `InvSbox(0xXY)` is in row X, column Y (R105). -/
def invSbox (b : Byte) : Byte := (invSboxRow (b.toNat / 16)).getD (b.toNat % 16) 0

/-! ### Columns and blocks -/

/-- The same function on each byte of a column. -/
def Quad.map (f : Byte → Byte) (q : Quad) : Quad := ⟨f q.r0, f q.r1, f q.r2, f q.r3⟩

/-- Bytewise XOR of two columns or schedule words. -/
def Quad.xor (p q : Quad) : Quad := ⟨p.r0 ^^^ q.r0, p.r1 ^^^ q.r1, p.r2 ^^^ q.r2, p.r3 ^^^ q.r3⟩

/-- The same function on each column. -/
def Block.map (f : Quad → Quad) (b : Block) : Block := ⟨f b.c0, f b.c1, f b.c2, f b.c3⟩

/-- AddRoundKey: bytewise XOR with four schedule words (R109). -/
def addRoundKey (k s : Block) : Block := ⟨s.c0.xor k.c0, s.c1.xor k.c1, s.c2.xor k.c2, s.c3.xor k.c3⟩

/-- Loading: `s[r][c] = in[r + 4c]` (R103); a byte the list lacks reads 0. -/
def Block.ofBytes (x : List Byte) : Block :=
  ⟨⟨x.getD 0 0, x.getD 1 0, x.getD 2 0, x.getD 3 0⟩, ⟨x.getD 4 0, x.getD 5 0, x.getD 6 0, x.getD 7 0⟩,
    ⟨x.getD 8 0, x.getD 9 0, x.getD 10 0, x.getD 11 0⟩, ⟨x.getD 12 0, x.getD 13 0, x.getD 14 0, x.getD 15 0⟩⟩

/-- The bytes of a column from row 0 down. -/
def Quad.toBytes (q : Quad) : List Byte := [q.r0, q.r1, q.r2, q.r3]

/-- Storing: `out[r + 4c] = s[r][c]` (R103). -/
def Block.toBytes (b : Block) : List Byte := b.c0.toBytes ++ b.c1.toBytes ++ b.c2.toBytes ++ b.c3.toBytes

/-- SubBytes (R106). -/
def subBytes (b : Block) : Block := b.map (Quad.map sbox)

/-- InvSubBytes (R106). -/
def invSubBytes (b : Block) : Block := b.map (Quad.map invSbox)

/-- ShiftRows: `s'[r][c] = s[r][(c + r) mod 4]` (R107). -/
def shiftRows (b : Block) : Block :=
  ⟨⟨b.c0.r0, b.c1.r1, b.c2.r2, b.c3.r3⟩, ⟨b.c1.r0, b.c2.r1, b.c3.r2, b.c0.r3⟩,
    ⟨b.c2.r0, b.c3.r1, b.c0.r2, b.c1.r3⟩, ⟨b.c3.r0, b.c0.r1, b.c1.r2, b.c2.r3⟩⟩

/-- InvShiftRows: `s'[r][c] = s[r][(c - r) mod 4]` (R107). -/
def invShiftRows (b : Block) : Block :=
  ⟨⟨b.c0.r0, b.c3.r1, b.c2.r2, b.c1.r3⟩, ⟨b.c1.r0, b.c0.r1, b.c3.r2, b.c2.r3⟩,
    ⟨b.c2.r0, b.c1.r1, b.c0.r2, b.c3.r3⟩, ⟨b.c3.r0, b.c2.r1, b.c1.r2, b.c0.r3⟩⟩

/-- A column times the circulant matrix whose first row is (k0, k1, k2, k3); MixColumns and its inverse are two such
(R108). -/
def circulant (k0 k1 k2 k3 : Byte) (a : Quad) : Quad :=
  ⟨gfMul a.r0 k0 ^^^ gfMul a.r1 k1 ^^^ gfMul a.r2 k2 ^^^ gfMul a.r3 k3,
    gfMul a.r0 k3 ^^^ gfMul a.r1 k0 ^^^ gfMul a.r2 k1 ^^^ gfMul a.r3 k2,
    gfMul a.r0 k2 ^^^ gfMul a.r1 k3 ^^^ gfMul a.r2 k0 ^^^ gfMul a.r3 k1,
    gfMul a.r0 k1 ^^^ gfMul a.r1 k2 ^^^ gfMul a.r2 k3 ^^^ gfMul a.r3 k0⟩

/-- MixColumns: `a0' = 2•a0 ^ 3•a1 ^ a2 ^ a3` and so on (R108). -/
def mixColumns (b : Block) : Block := b.map (circulant 2 3 1 1)

/-- InvMixColumns: `a0' = 14•a0 ^ 11•a1 ^ 13•a2 ^ 9•a3` and so on (R108). -/
def invMixColumns (b : Block) : Block := b.map (circulant 14 11 13 9)

/-! ### The key schedule -/

/-- RotWord then SubWord then the round constant: the t of R110 at an i that 4 divides. -/
def scheduleCore (rcon : Byte) (t : Quad) : Quad := ⟨sbox t.r1 ^^^ rcon, sbox t.r2, sbox t.r3, sbox t.r0⟩

/-- The words `w[4r .. 4r+3]` from `w[4r-4 .. 4r-1]` and Rcon[r] (R110). -/
def nextRoundKey (rcon : Byte) (k : Block) : Block :=
  let w0 := k.c0.xor (scheduleCore rcon k.c3)
  let w1 := k.c1.xor w0
  let w2 := k.c2.xor w1
  ⟨w0, w1, w2, k.c3.xor w2⟩

/-- Rcon[1..10] (R110). -/
def rconTable : List Byte := [0x01, 0x02, 0x04, 0x08, 0x10, 0x20, 0x40, 0x80, 0x1b, 0x36]

/-- The round keys after a given one, one for each round constant (R110). -/
def roundKeysAfter : List Byte → Block → List Block
  | [], _ => []
  | rc :: rcs, k => nextRoundKey rc k :: roundKeysAfter rcs (nextRoundKey rc k)

/-- `KeyExpansion(key)`: `w[0..43]`, four words to a round key, eleven round keys (R110). -/
def keyExpansion (key : Block) : List Block := key :: roundKeysAfter rconTable key

/-! ### The cipher -/

/-- The rounds of R111 after the first AddRoundKey: all but the last mix columns. -/
def encRounds : List Block → Block → Block
  | [], s => s
  | [k], s => addRoundKey k (shiftRows (subBytes s))
  | k :: k' :: ks, s => encRounds (k' :: ks) (addRoundKey k (mixColumns (shiftRows (subBytes s))))

/-- `AES128_Enc` (R111). -/
def aesEnc (key s : Block) : Block :=
  match keyExpansion key with
  | [] => s
  | k0 :: ks => encRounds ks (addRoundKey k0 s)

/-- The rounds of R112 after the first AddRoundKey, over the round keys from the last but one down to 0: all but the
last mix columns back. -/
def decRounds : List Block → Block → Block
  | [], s => s
  | [k], s => addRoundKey k (invSubBytes (invShiftRows s))
  | k :: k' :: ks, s => decRounds (k' :: ks) (invMixColumns (addRoundKey k (invSubBytes (invShiftRows s))))

/-- `AES128_Dec` (R112). -/
def aesDec (key s : Block) : Block :=
  match (keyExpansion key).reverse with
  | [] => s
  | k10 :: ks => decRounds ks (addRoundKey k10 s)

/-- `AES128_Enc` on byte sequences: KEY[i] is key[i], in[i] and out[i] are bytes i (R101). -/
def aes128Enc (key x : List Byte) : List Byte := (aesEnc (Block.ofBytes key) (Block.ofBytes x)).toBytes

/-- `AES128_Dec` on byte sequences (R101). -/
def aes128Dec (key x : List Byte) : List Byte := (aesDec (Block.ofBytes key) (Block.ofBytes x)).toBytes

/-- A block function on each of nb consecutive 16-byte blocks, with no chaining (R100, R114). -/
def ecbMap (f : List Byte → List Byte) : Nat → List Byte → List Byte
  | 0, _ => []
  | nb + 1, x => f (x.take 16) ++ ecbMap f nb (x.drop 16)

/-- `ECB_Enc(k, x)` over nb blocks (R114). -/
def ecbEnc (key : List Byte) (nb : Nat) (x : List Byte) : List Byte := ecbMap (aes128Enc key) nb x

/-- `ECB_Dec(k, x)` over nb blocks (R114). -/
def ecbDec (key : List Byte) (nb : Nat) (x : List Byte) : List Byte := ecbMap (aes128Dec key) nb x

/-! ### The commands -/

/-- AES_ENC_BLK: `BLK <- AES128_Enc(KEY, BLK)` (R115). -/
def execAesEncBlk (s : State) : Host.Outcome State Fault Refusal :=
  .next (complete .ok { s with mem := s.mem.writeBytes blkBase (aes128Enc s.keyBytes s.blkBytes) })

/-- AES_DEC_BLK: `BLK <- AES128_Dec(KEY, BLK)` (R116). -/
def execAesDecBlk (s : State) : Host.Outcome State Fault Refusal :=
  .next (complete .ok { s with mem := s.mem.writeBytes blkBase (aes128Dec s.keyBytes s.blkBytes) })

end Sys2Proof.Machine
end

