-- ==== Sys2Proof/Machine/Checksum.lean ====
section
/-!
DEFINITION. The checksum commands CK_CALC and CK_VERIFY (41_checksum.md R144, R145). The algorithm is the parameter
CK16, the same one the envelope uses (R140, R141).
-/
namespace Sys2Proof.Machine

/-- CK_CALC on any parameters (R144). -/
def ckCalc (c : Config) (s : State) : State :=
  if frameSize < s.flen.toNat then complete .frameLen s
  else complete .ok { s with result := (c.ck16 (s.frameBytes s.flen.toNat)).setWidth 32 }

/-- The checksum CK_VERIFY computes: over all but the two trailing bytes (R145). -/
def ckVerifyCalc (c : Config) (s : State) : Half := c.ck16 (s.frameBytes (s.flen.toNat - 2))

/-- The checksum CK_VERIFY compares with: the two trailing bytes, low byte first (R145). -/
def ckVerifyStored (s : State) : Half :=
  fromLE16 (s.mem.read (frameBase + (s.flen.toNat - 2))) (s.mem.read (frameBase + (s.flen.toNat - 1)))

/-- CK_VERIFY on any parameters (R145): RESULT is `match << 16 | c`, written before a mismatch is recorded. -/
def ckVerify (c : Config) (s : State) : State :=
  if s.flen.toNat < 2 ∨ frameSize < s.flen.toNat then complete .frameLen s
  else
    complete (selectCode [recordIf (ckVerifyCalc c s != ckVerifyStored s) .ckMismatch])
      { s with
        result := flagBit (ckVerifyCalc c s == ckVerifyStored s) <<< 16 ||| (ckVerifyCalc c s).setWidth 32 }

/-- CK_CALC (R144). -/
def execCkCalc (s : State) : Host.Outcome State Fault Refusal := .next (ckCalc config s)

/-- CK_VERIFY (R145). -/
def execCkVerify (s : State) : Host.Outcome State Fault Refusal := .next (ckVerify config s)

end Sys2Proof.Machine
end

