-- ==== Sys2Proof/Machine/Envelope.lean ====
section
/-!
DEFINITION. The envelope sequencer (42_envelope.md): layout, packing, counter, and the commands PACKING_LEN,
ENV_ENCRYPT and ENV_DECRYPT (R160 to R178). The plaintext envelope is local to a command and is no state (10_state.md
R43).
-/
namespace Sys2Proof.Machine

/-! ### Packing and layout -/

/-- `packing_len(L)` (R162). -/
def packingLen (l : Nat) : Nat := (16 - (7 + l) % 16) % 16

/-- The envelope up to its checksum: marker, length, count, data, packing (R160). -/
def envelopeBody (c : Config) (count : Word) (data pad : List Byte) : List Byte :=
  c.startMarker :: BitVec.ofNat 8 data.length :: (le32 count ++ data ++ pad)

/-- The envelope checksum: from CK_ENV_START through the last packing byte (R165). -/
def envelopeChecksum (c : Config) (body : List Byte) : Half := c.ck16 (body.drop c.ckEnvStart.val)

/-- The whole plaintext envelope (R160). -/
def envelope (c : Config) (count : Word) (data pad : List Byte) : List Byte :=
  envelopeBody c count data pad ++ le16 (envelopeChecksum c (envelopeBody c count data pad))

/-- The envelope as it stands at step (a): count ECOUNT, zero packing, zero checksum (R171). -/
def envelopeAtStepA (c : Config) (ecount : Word) (data : List Byte) : List Byte :=
  envelopeBody c ecount data (zeros (packingLen data.length)) ++ zeros 2

/-- The count an envelope carries: ECOUNT if it is set, else SEQ (R166). -/
def envelopeCount (s : State) : Word := if s.ecount ≠ 0 then s.ecount else s.seq

/-- The pad bytes CTRL.PAD_MODE selects; the deterministic source reads SEQ before it advances (R170 to R172, R174). -/
def padBytes (c : Config) (s : State) (data : List Byte) : List Byte :=
  match s.padMode with
  | .zero => zeros (packingLen data.length)
  | .entropy => entropyBytes c s.entropyDraws (packingLen data.length)
  | .deterministic =>
    (c.padDet (envelopeAtStepA c s.ecount data) (le32 s.seq) (packingLen data.length)).toList

/-- How many entropy bytes the pad draws: none unless PAD_MODE is ENTROPY, none if the packing is empty (R170). -/
def padDraws (s : State) (p : Nat) : Nat := if s.padMode = .entropy then p else 0

/-! ### PACKING_LEN -/

/-- PACKING_LEN: RESULT takes packing_len(DLEN.LEN), unchecked against MED (R173). -/
def packingLenCommand (s : State) : State :=
  complete .ok { s with result := BitVec.ofNat 32 (packingLen s.dlen.toNat) }

/-- PACKING_LEN (R173). -/
def execPackingLen (s : State) : Host.Outcome State Fault Refusal := .next (packingLenCommand s)

/-! ### ENV_ENCRYPT -/

/-- The plaintext envelope of ENV_ENCRYPT after steps (a) to (c) (R174). -/
def encryptEnvelope (c : Config) (s : State) : List Byte :=
  envelope c (envelopeCount s) (s.dataBytes s.dlen.toNat) (padBytes c s (s.dataBytes s.dlen.toNat))

/-- The frame data region of an envelope: the marker in plaintext, then every 16-byte block encrypted (R164, R174
step (d)). -/
def sealEnvelope (key env : List Byte) : List Byte := env.take 1 ++ ecbEnc key ((env.length - 1) / 16) (env.drop 1)

/-- The whole FRAME window after ENV_ENCRYPT: the frame, then zeros (R174). -/
def frameImage (frame : List Byte) : List Byte := frame ++ zeros (frameSize - frame.length)

/-- ERRINFO for a data-length error: MAX in 31:16, ACTUAL in 15:0 (R32, R175). -/
def errInfoWord (max : Nat) (actual : Half) : Word := BitVec.ofNat 32 max <<< 16 ||| actual.setWidth 32

/-- ENV_ENCRYPT on any parameters (R174, R175). -/
def envEncrypt (c : Config) (s : State) : State :=
  if c.med.val < s.dlen.toNat then complete .dataLen { s with errinfo := errInfoWord c.med.val s.dlen }
  else
    complete .ok
      { s with
        mem := s.mem.writeBytes frameBase (frameImage (sealEnvelope s.keyBytes (encryptEnvelope c s)))
        flen := BitVec.ofNat 16 (8 + s.dlen.toNat + packingLen s.dlen.toNat)
        result := BitVec.ofNat 32 (packingLen s.dlen.toNat)
        ecount := 0
        seq := s.seq + 1
        entropyDraws := s.entropyDraws + padDraws s (packingLen s.dlen.toNat) }

/-- ENV_ENCRYPT (R174). -/
def execEnvEncrypt (s : State) : Host.Outcome State Fault Refusal := .next (envEncrypt config s)

/-! ### ENV_DECRYPT -/

/-- The whole blocks a frame of declared length F has in the window (R176). -/
def frameBlocks (f : Nat) : Nat := (min f frameSize - 1) / 16

/-- `bad_frame`: the declared length is no `1 + 16k` with k >= 1, or exceeds the window (R176, R177). -/
def badFrame (f : Nat) : Bool := decide (f < 17 ∨ frameSize < f ∨ (f - 1) % 16 ≠ 0)

/-- The plaintext ENV_DECRYPT has: FRAME[0] as it stands, then every whole block decrypted (R176). -/
def openFrame (s : State) : List Byte :=
  s.frameBytes 1 ++ ecbDec s.keyBytes (frameBlocks s.flen.toNat)
    (s.mem.bytes (frameBase + 1) (16 * frameBlocks s.flen.toNat))

/-- `byte(i)`: past the decrypted bytes, 0 (R176). -/
def envByte (env : List Byte) (i : Nat) : Byte := env.getD i 0

/-- `byte(lo) .. byte(hi - 1)` (R176). -/
def envBytes (env : List Byte) (lo hi : Nat) : List Byte :=
  (List.range (hi - lo)).map fun i => envByte env (lo + i)

/-- `Ld`, the decrypted length field (R176). -/
def envLength (env : List Byte) : Nat := (envByte env 1).toNat

/-- The decrypted sequence count (R176). -/
def envCount (env : List Byte) : Word := leWord (envByte env 2) (envByte env 3) (envByte env 4) (envByte env 5)

/-- The decrypted message data (R176). -/
def envData (env : List Byte) : List Byte := envBytes env 6 (6 + envLength env)

/-- Where the checksum field starts, `6 + Ld + Pd` (R176). -/
def envChecksumAt (env : List Byte) : Nat := 6 + envLength env + packingLen (envLength env)

/-- The checksum the envelope carries (R176). -/
def envStored (env : List Byte) : Half :=
  fromLE16 (envByte env (envChecksumAt env)) (envByte env (envChecksumAt env + 1))

/-- The checksum recomputed over the reconstructed bytes, with the coverage of R165 (R176, R178). -/
def envCalc (c : Config) (env : List Byte) : Half :=
  c.ck16 (envBytes env c.ckEnvStart.val (envChecksumAt env))

/-- `bad_len`: the decrypted length does not fit the decrypted size (R176, R177). -/
def badLength (env : List Byte) (nb : Nat) : Bool :=
  decide (7 + envLength env + packingLen (envLength env) ≠ 16 * nb)

/-- The whole DATA window after ENV_DECRYPT: the data, then zeros (R38, R176). -/
def dataImage (data : List Byte) : List Byte := data ++ zeros (dataSize - data.length)

/-- The code ENV_DECRYPT ends with: FRAME_LEN over CK_MISMATCH (R176, R251). -/
def decryptCode (c : Config) (f : Nat) (env : List Byte) : ErrorCode :=
  selectCode
    [recordIf (badFrame f || badLength env (frameBlocks f)) .frameLen,
      recordIf (envCalc c env != envStored env) .ckMismatch]

/-- The writes of ENV_DECRYPT given the plaintext: all of them whatever is recorded (R176, R177). -/
def decryptWrites (c : Config) (env : List Byte) (s : State) : State :=
  { s with
    mem := s.mem.writeBytes dataBase (dataImage (envData env))
    dlen := BitVec.ofNat 16 (envLength env)
    dcount := envCount env
    result := joinHalves (envCalc c env) (envStored env)
    seq := s.seq + 1 }

/-- ENV_DECRYPT on any parameters (R176). -/
def envDecrypt (c : Config) (s : State) : State :=
  complete (decryptCode c s.flen.toNat (openFrame s)) (decryptWrites c (openFrame s) s)

/-- ENV_DECRYPT (R176). -/
def execEnvDecrypt (s : State) : Host.Outcome State Fault Refusal := .next (envDecrypt config s)

end Sys2Proof.Machine
end

