-- ==== Sys2Proof/Machine/Prime.lean ====
section
/-!
DEFINITION. The prime unit (43_prime.md): the laws the spec puts on its parameters (R211, R217), exact modular
arithmetic (R214), the primality pipeline (R215 to R222), and the commands RNG_SEED, RNG_ENTROPY, PRIME_TEST and
PRIME_GEN (R212, R213, R223 to R226).
-/
namespace Sys2Proof.Machine

/-! ### The parameters under their laws -/

/-- The entries of a list that keep it a strictly rising list of primes below 2^64, above a bound (R9; log 8). -/
def risingPrimes (above : Nat) : List Nat → List Nat
  | [] => []
  | p :: ps =>
    if above < p ∧ p < 2 ^ 64 ∧ p.Prime then p :: risingPrimes p ps else risingPrimes above ps

/-- SMALL_PRIMES: distinct primes in ascending order, each below 2^64, with 2, 3, 5 and 7 among them (R9, R217). Every
table the spec allows is this one for some `smallPrimesRest` (log 8). -/
def smallPrimes (c : Config) : List Nat := [2, 3, 5, 7] ++ risingPrimes 7 c.smallPrimesRest

/-- RNG_RANGE under its only law, `lo <= v <= hi` (R211; log 8). -/
def rngRange (c : Config) (st : RngState) (lo hi : Cand) : Cand × RngState :=
  let r := c.rngRangeRaw st lo hi
  (if lo ≤ r.1 ∧ r.1 ≤ hi then r.1 else lo, r.2)

/-! ### Arithmetic -/

/-- Square and multiply over the lowest k bits of e, exact on naturals (R214). -/
def powModBits : Nat → Nat → Nat → Nat → Nat
  | 0, _, _, n => 1 % n
  | k + 1, a, e, n =>
    if e = 0 then 1 % n
    else if e % 2 = 1 then a * powModBits k (a * a % n) (e / 2) n % n
    else powModBits k (a * a % n) (e / 2) n

/-- `powmod(a, e, n)` for a 64-bit exponent (R214). -/
def powMod (a e n : Nat) : Nat := powModBits 64 (a % n) e n

/-- `m = d * 2^s` with d odd, for m of at most k bits: (d, s) (R219). -/
def oddPart : Nat → Nat → Nat × Nat
  | 0, m => (m, 0)
  | k + 1, m => if m % 2 = 0 then ((oddPart k (m / 2)).1, (oddPart k (m / 2)).2 + 1) else (m, 0)

/-! ### The stages -/

/-- FERMAT_ROUNDS (R8, R228). -/
def fermatRounds : Nat := 16

/-- MR_ROUNDS (R8, R228). -/
def mrRounds : Nat := 16

/-- Rounds of a test, each drawing a base in [2, n-2]; the first round that fails ends the test and its draws (R218,
R220, R222). -/
def testRounds (c : Config) (n : Cand) (passes : Nat → Bool) : Nat → RngState → Bool × RngState
  | 0, st => (true, st)
  | k + 1, st =>
    let d := rngRange c st 2 (n - 2)
    if passes d.1.toNat then testRounds c n passes k d.2 else (false, d.2)

/-- A Fermat round: `a^(n-1) mod n = 1` (R218). -/
def fermatPasses (n a : Nat) : Bool := powMod a (n - 1) n == 1

/-- The squarings of a Miller–Rabin round: n-1 passes, 1 rejects, running out rejects (R220). -/
def mrSquarings (n : Nat) : Nat → Nat → Bool
  | 0, _ => false
  | k + 1, x =>
    if x * x % n = n - 1 then true
    else if x * x % n = 1 then false
    else mrSquarings n k (x * x % n)

/-- A Miller–Rabin round: a first value 1 or n-1 passes, else at most s-1 squarings (R220). -/
def mrPasses (n a : Nat) : Bool :=
  let d := (oddPart 64 (n - 1)).1
  let s := (oddPart 64 (n - 1)).2
  let x := powMod a d n
  x == 1 || x == n - 1 || mrSquarings n (s - 1) x

/-- Stages 0 and 1: the verdicts reached with no draws; none when the candidate goes on (R215 to R217). -/
def quickVerdict (table : List Nat) (n : Nat) : Option Bool :=
  if n = 0 ∨ (n % 2 = 0 ∧ n ≠ 2) then some false
  else if n = 1 then some false
  else if n ∈ table then some true
  else if table.any (fun p => n % p == 0) then some false
  else none

/-- Stages 2 and 3 (R218 to R220). -/
def drawnVerdict (c : Config) (n : Cand) (st : RngState) : Bool × RngState :=
  let f := testRounds c n (fermatPasses n.toNat) fermatRounds st
  if f.1 then
    -- R219's `n = 2` is never reached here, as 2 is in the table; it is kept as the rule keeps it
    if n = 2 then (true, f.2) else testRounds c n (mrPasses n.toNat) mrRounds f.2
  else (false, f.2)

/-- `is_prime(n, st)` (R221). -/
def isPrime (c : Config) (n : Cand) (st : RngState) : Bool × RngState :=
  match quickVerdict (smallPrimes c) n.toNat with
  | some v => (v, st)
  | none => drawnVerdict c n st

/-! ### RNG_SEED and RNG_ENTROPY -/

/-- RNG_SEED on any parameters: `prng <- some (RNG_INIT(SEED))` (R212). -/
def rngSeed (c : Config) (s : State) : State := complete .ok { s with prng := some (c.rngInit s.seedBytes) }

/-- RNG_ENTROPY on any parameters: as RNG_SEED with 32 drawn bytes, ILLEGAL_CMD without an entropy source (R213). -/
def rngEntropy (c : Config) (s : State) : State :=
  if c.hasEntropy then
    complete .ok
      { s with
        prng := some (c.rngInit (entropyBytes c s.entropyDraws 32))
        entropyDraws := s.entropyDraws + 32 }
  else complete .illegalCmd s

/-- RNG_SEED (R212). -/
def execRngSeed (s : State) : Host.Outcome State Fault Refusal := .next (rngSeed config s)

/-- RNG_ENTROPY (R213). -/
def execRngEntropy (s : State) : Host.Outcome State Fault Refusal := .next (rngEntropy config s)

/-! ### PRIME_TEST -/

/-- PRIME_TEST on any parameters (R223). -/
def primeTest (c : Config) (s : State) : State :=
  match s.prng with
  | none => complete .notSeeded s
  | some st =>
    complete .ok
      { s with prng := some (isPrime c s.cand st).2, result := flagBit (isPrime c s.cand st).1 }

/-- PRIME_TEST (R223). -/
def execPrimeTest (s : State) : Host.Outcome State Fault Refusal := .next (primeTest config s)

/-! ### PRIME_GEN -/

/-- Where the loop of `new_prime` stands: at its start, or after the attempts already made (R224; log 5). -/
def searchPoint (s : State) (st : RngState) : Search := s.search.getD ⟨st, 0⟩

/-- The cap is reached: `PRIME_MAX_ATTEMPTS > 0 and attempts == PRIME_MAX_ATTEMPTS` (R224). -/
def capReached (c : Config) (attempts : Nat) : Bool :=
  decide (0 < c.primeMaxAttempts) && attempts == c.primeMaxAttempts

/-- One turn of the loop of `new_prime` (R224): the cap ends it with ATTEMPTS; a candidate that passes is returned
(R225); one that fails leaves the command pending, with the loop one attempt further and nothing the host can see
changed (R226; log 5). -/
def searchTurn (c : Config) (p : Search) (s : State) : State :=
  if capReached c p.attempts then complete .attempts { s with prng := some p.stream, result := 0 }
  else
    let draw := c.rngU64 p.stream
    let verdict := isPrime c draw.1 draw.2
    if verdict.1 then complete .ok { s with prng := some verdict.2, cand := draw.1, result := 1 }
    else { s with search := some ⟨verdict.2, p.attempts + 1⟩ }

/-- PRIME_GEN on any parameters (R225). -/
def primeGen (c : Config) (s : State) : State :=
  match s.prng with
  | none => complete .notSeeded s
  | some st => searchTurn c (searchPoint s st) s

/-- PRIME_GEN (R225). -/
def execPrimeGen (s : State) : Host.Outcome State Fault Refusal := .next (primeGen config s)

/-- The loop of `new_prime` as R224 writes it, cut off after `fuel` turns: none when it has not returned by then. The
machine does not run it: it is what a claim about PRIME_GEN is measured against. -/
def newPrimeWithin (c : Config) : Nat → Nat → RngState → Option (Option Cand × RngState)
  | 0, _, _ => none
  | fuel + 1, attempts, st =>
    if capReached c attempts then some (none, st)
    else
      let draw := c.rngU64 st
      let verdict := isPrime c draw.1 draw.2
      if verdict.1 then some (some draw.1, verdict.2) else newPrimeWithin c fuel (attempts + 1) verdict.2

end Sys2Proof.Machine
end

