-- ==== Sys2Proof/Machine/Dispatch.lean ====
section
/-! DEFINITION. The Complete step of each command (10_state.md R44): one arm per row of spec/opcode_table.json, each one
call of that command's meaning. -/
namespace Sys2Proof.Machine

def exec (i : Instr) (s : State) : Host.Outcome State Fault Refusal :=
  match i with
  | .aesEncBlk => Sys2Proof.Machine.execAesEncBlk s
  | .aesDecBlk => Sys2Proof.Machine.execAesDecBlk s
  | .ckCalc => Sys2Proof.Machine.execCkCalc s
  | .ckVerify => Sys2Proof.Machine.execCkVerify s
  | .packingLen => Sys2Proof.Machine.execPackingLen s
  | .envEncrypt => Sys2Proof.Machine.execEnvEncrypt s
  | .envDecrypt => Sys2Proof.Machine.execEnvDecrypt s
  | .rngSeed => Sys2Proof.Machine.execRngSeed s
  | .rngEntropy => Sys2Proof.Machine.execRngEntropy s
  | .primeTest => Sys2Proof.Machine.execPrimeTest s
  | .primeGen => Sys2Proof.Machine.execPrimeGen s

end Sys2Proof.Machine
end

