-- ==== Sys2Proof/Machine/Engine.lean ====
section
/-!
DEFINITION. What one event of the total order does: the engine's turn (10_state.md R44), a host access (20_memory.md
R61, R70), a poll of the host's loop (30_encoding.md R88), a reset (70_reset_and_hazards.md R280); and which event comes next (log 1).
-/
namespace Sys2Proof.Machine

/-- A word that decodes to ILLEGAL completes with ILLEGAL_CMD and no other effect (30_encoding.md R85). -/
def illegalCommand (s : State) : State := complete .illegalCmd s

/-- The engine's turn: with a command pending, its Complete step, decoding the word then (R44, R83); else nothing. -/
def engineTurn (s : State) : Host.Outcome State Fault Refusal :=
  match s.pending with
  | none => .next s
  | some w =>
    match decode w with
    | .ok i => exec i s
    | .error _ => .next (illegalCommand s)

/-- A host read: BUS_ERROR unless admitted (R61, R254). -/
def hostRead (c : Config) (width : AccessWidth) (off : Nat) (s : State) : Host.Outcome State Fault Refusal :=
  if admitted width off then .next (busRead c off s) else .fault (.busError width off)

/-- A host write: BUS_ERROR unless admitted (R61, R254). -/
def hostWrite (c : Config) (width : AccessWidth) (off : Nat) (v : Word) (s : State) :
    Host.Outcome State Fault Refusal :=
  if admitted width off then .next (busWrite c off v s) else .fault (.busError width off)

/-- What the host does with the answer of a poll: with bit 0 set it goes back to poll, after a turn of the engine; else it
goes on (30_encoding.md R88; log 15). -/
def afterPoll (s : State) : State :=
  if (s.readData.getD 0).getLsbD 0 then withAgenda (.engine :: .wait :: s.agenda) s else s

/-- `loop: lw s, STATUS; if s[0] == 1 goto loop`, up to the next poll (R88). -/
def hostWait (c : Config) (s : State) : Host.Outcome State Fault Refusal := .next (afterPoll (busRead c statusOffset s))

/-- One event, atomic against all others (R65, R70). -/
def perform (e : Event) (s : State) : Host.Outcome State Fault Refusal :=
  match e with
  | .read width off => hostRead config width off s
  | .write width off v => hostWrite config width off v s
  | .reset => .next (resetEvent s)
  | .engine => engineTurn s
  | .wait => hostWait config s

/-- The next event of the agenda; when none is left the engine has every turn, so an enabled Complete step happens
(70_reset_and_hazards.md R293; log 1). -/
def runNextEvent (s : State) : Host.Outcome State Fault Refusal :=
  match s.agenda with
  | [] => engineTurn s
  | e :: rest => perform e (withAgenda rest s)

end Sys2Proof.Machine
end

