-- ==== Sys2Proof/Machine/Step.lean ====
section
/-!
DEFINITION. One step of the machine, and the state in which its next step runs a given command word.
-/
namespace Sys2Proof.Machine

/-- One step of the total order of host accesses, Complete steps and resets (20_memory.md R70). -/
def step (s : State) : Host.Outcome State Fault Refusal := runNextEvent s

/-- The state with a command of `nbits` bits accepted (10_state.md R45) and the engine's turn next (log 9). -/
def State.withFetchWord (s : State) (nbits w : Nat) : State := placeCommand (BitVec.ofNat 32 (w % 2 ^ nbits)) s

end Sys2Proof.Machine
end

