-- ==== Sys2Proof/Machine/HostProgram.lean ====
section
/-!
DEFINITION. The assembler of 30_encoding.md R87 to R89: a host program is a sequence of bus operations, and its encoding
is its list of transactions. Control flow is the host's; the one loop the assembler writes, `wait`, is an event of its own
(log 15), since the number of its polls is the engine's to decide.
-/
namespace Sys2Proof.Machine

/-- `sw OFF, IMM32` (R87). -/
def sw (off : Nat) (v : Word) : Event := .write .word off v

/-- `lw NAME, OFF` (R87); the variable takes `readData`. -/
def lw (off : Nat) : Event := .read .word off

/-- A word write at a bus address, if it lies in the register space (00_scope.md R9, 20_memory.md R60). -/
def writeAt (c : Config) (addr : Nat) (v : Word) : Option Event := (busOffset c.base addr).map fun off => sw off v

/-- A word read at a bus address, if it lies in the register space (R9, R60). -/
def readAt (c : Config) (addr : Nat) : Option Event := (busOffset c.base addr).map lw

/-- `cmd MNEMONIC` (R88). -/
def cmd (i : Instr) : Event := sw 0x000 (encode i)

/-- `wait`: `loop: lw s, STATUS; if s[0] == 1 goto loop` (R88). -/
def wait : Event := .wait

/-- `ack`: clears DONE and OVR (R88). -/
def ack : Event := sw statusOffset 0x6

/-- The words of a byte sequence, the last one zero-padded, stored from an offset on (R88). -/
def storeWords (off : Nat) : List Byte → List Event
  | [] => []
  | [b0] => [sw off (leWord b0 0 0 0)]
  | [b0, b1] => [sw off (leWord b0 b1 0 0)]
  | [b0, b1, b2] => [sw off (leWord b0 b1 b2 0)]
  | b0 :: b1 :: b2 :: b3 :: rest => sw off (leWord b0 b1 b2 b3) :: storeWords (off + 4) rest

/-- `setkey k0 .. k15` (R88). -/
def setkey (k : Vector Byte 16) : List Event := storeWords keyBase k.toList

/-- `setblk b0 .. b15` (R88). -/
def setblk (b : Vector Byte 16) : List Event := storeWords blkBase b.toList

/-- `setseed s0 .. s31` (R88). -/
def setseed (b : Vector Byte 32) : List Event := storeWords seedBase b.toList

/-- `putdata OFS, bytes` (R88). -/
def putdata (ofs : Nat) (bs : List Byte) : List Event := storeWords (dataBase + ofs) bs

/-- `run MNEMONIC`: `cmd`, then `wait` (R88). -/
def runCommand (i : Instr) : List Event := [cmd i, wait]

end Sys2Proof.Machine
end

