-- ==== Sys2Proof/Safety.lean ====
section
/-!
DEFINITION. The terms claims use: the machine's invariants, what it is for a command to have completed, a safe run, and
the hidden operands.
-/
namespace Sys2Proof.Machine

/-- An offset inside KEY, BLK, SEED, DATA or FRAME, the only storage of bytes there is (10_state.md R22, R34 to R39). -/
def inByteArray (a : Nat) : Bool := decide ((0x040 ≤ a ∧ a < 0x080) ∨ (0x100 ≤ a ∧ a < 0x400))

/-- Every cell lies in a byte array: no register or reserved offset holds bytes (R22, R40). -/
abbrev cellsInArrays (m : Memory) : Prop := ∀ c ∈ m, inByteArray c.1 = true

/-- A PRIME_GEN loop in progress belongs to a pending PRIME_GEN of a seeded unit, and has not passed the cap (log 5). -/
abbrev searchOk (s : State) : Prop :=
  ∀ p, s.search = some p →
    s.pending.map decode = some (.ok .primeGen) ∧ s.prng.isSome = true ∧
      (0 < config.primeMaxAttempts → p.attempts ≤ config.primeMaxAttempts)

/-- What holds at reset and after every step: the byte arrays are canonical and hold nothing outside themselves; while a
command is pending DONE = 0 and ERR = 0 (20_memory.md R66); ERR is never a reserved code (60_exceptions.md R250);
PAD_MODE is never ENTROPY without an entropy source (10_state.md R25); a loop in progress is a pending PRIME_GEN's (log
5). -/
structure Inv (s : State) : Prop where
  canonical : s.mem.wf
  arraysOnly : cellsInArrays s.mem
  busyFlags : s.pending.isSome = true → s.done = false ∧ s.err = 0
  errDefined : s.err.toNat ≤ 6
  padLegal : config.hasEntropy = false → s.padMode ≠ .entropy
  searchOwned : searchOk s

/-- A command has completed with a code: ERR, DONE, and the engine IDLE again (10_state.md R44). -/
abbrev CompletedWith (code : ErrorCode) (t : State) : Prop :=
  t.err = code.bits ∧ t.done = true ∧ t.pending = none ∧ t.search = none

/-- Two states a host cannot tell apart by KEY and SEED: the same but for those bytes (R34, R36). -/
abbrev SameButSecrets (s t : State) : Prop :=
  t = { s with mem := t.mem } ∧
    ∀ a, ¬ (keyBase ≤ a ∧ a < keyBase + 16) → ¬ (seedBase ≤ a ∧ a < seedBase + 32) → t.mem.read a = s.mem.read a

/-- The offsets in the write set that each command's own rule lists, STATUS and hidden state apart: the lists of
40_aes_block.md R115, R116, 41_checksum.md R144, R145, 42_envelope.md R173, R174, R176 and 43_prime.md R212, R213, R223,
R225, with the offsets of R22. Claims use it and not the machine's own table. -/
def listedWrite (i : Instr) (off : Nat) : Bool :=
  match i with
  | .aesEncBlk => decide (0x050 ≤ off ∧ off < 0x060)
  | .aesDecBlk => decide (0x050 ≤ off ∧ off < 0x060)
  | .ckCalc => decide (off = 0x020)
  | .ckVerify => decide (off = 0x020)
  | .packingLen => decide (off = 0x020)
  | .envEncrypt => decide (off ∈ [0x00C, 0x010, 0x01C, 0x020, 0x024] ∨ 0x200 ≤ off ∧ off < 0x400)
  | .envDecrypt => decide (off ∈ [0x00C, 0x014, 0x018, 0x020] ∨ 0x100 ≤ off ∧ off < 0x200)
  | .rngSeed => false
  | .rngEntropy => false
  | .primeTest => decide (off = 0x020)
  | .primeGen => decide (off ∈ [0x020, 0x028, 0x02C])

/-- What a step does when a host word read stands first in the agenda: the rest of the agenda is that of `s`. -/
def hostReads (off : Nat) (s : State) : Host.Outcome State Fault Refusal :=
  step { s with agenda := .read .word off :: s.agenda }

/-- What a step does when a host word write stands first in the agenda. -/
def hostWrites (off : Nat) (v : Word) (s : State) : Host.Outcome State Fault Refusal :=
  step { s with agenda := .write .word off v :: s.agenda }

/-- What a step does when the engine's turn stands first in the agenda. -/
def engineActs (s : State) : Host.Outcome State Fault Refusal := step { s with agenda := .engine :: s.agenda }

/-- What a step does when a reset stands first in the agenda. -/
def platformResets (s : State) : Host.Outcome State Fault Refusal := step { s with agenda := .reset :: s.agenda }

/-- The next event is the engine's turn: it stands first, or nothing is left (70_reset_and_hazards.md R293). -/
abbrev EngineIsNext (s : State) : Prop := s.agenda = [] ∨ s.agenda.head? = some .engine

/-- k engine turns in a row, stopping where a step stops. -/
def engineTurns : Nat → State → Host.Outcome State Fault Refusal
  | 0, s => .next s
  | k + 1, s =>
    match engineActs s with
    | .next t => engineTurns k t
    | .fault f => .fault f
    | .refused r => .refused r

/-- A safe run makes no access the block answers with BUS_ERROR (60_exceptions.md R254). -/
def safeEvent : Event → Bool
  | .read width off => admitted width off
  | .write width off _ => admitted width off
  | .reset => true
  | .engine => true
  | .wait => true

end Sys2Proof.Machine
end

