-- ==== Sys2Proof/Certificates/Slice0/Obligations.lean ====
section
/-!
DEFINITION. The statements for the provers, in the order of spec/. `{ s with … } = t` in a statement says that every
field it does not name is unchanged: that is its frame.
-/

open Sys2Proof Sys2Proof.Machine

/-! ### Words (30_encoding.md) -/

/-- R83, R89: a word decodes to a command exactly when it is that command's word, `zext_32(OP)`; so no two commands
share a word, and no bit of a word is dropped. -/
def Obligations.DecodeAcceptsExactlyEncodings : Prop :=
  ∀ (w : Word) (i : Instr), decode w = .ok i ↔ w = encode i

/-- R84: every word with RSV != 0 and every OP outside the map of R82 is rejected, by name, and nothing else is. -/
def Obligations.ReservedWordsAreRejected : Prop :=
  ∀ w : Word,
    (w.toNat / 256 ≠ 0 → decode w = .error .reservedBits) ∧
    (w.toNat / 256 = 0 → w.toNat ∉ [0x01, 0x02, 0x08, 0x09, 0x10, 0x11, 0x12, 0x20, 0x21, 0x22, 0x23] →
      decode w = .error (.unknownOp (BitVec.ofNat 8 w.toNat))) ∧
    (w.toNat ∈ [0x01, 0x02, 0x08, 0x09, 0x10, 0x11, 0x12, 0x20, 0x21, 0x22, 0x23] → ∃ i, decode w = .ok i)

/-- Words written out bit by bit from R82 (RSV, then OP), one of each family, and the bytes of one in bus order. -/
def Obligations.SampleWordsDecode : Prop :=
  decode 0b000000000000000000000000_00000001#32 = .ok .aesEncBlk ∧
    decode 0b000000000000000000000000_00001001#32 = .ok .ckVerify ∧
    decode 0b000000000000000000000000_00010001#32 = .ok .envEncrypt ∧
    decode 0b000000000000000000000000_00100011#32 = .ok .primeGen ∧
    decode 0b000000000000000000000001_00010001#32 = .error .reservedBits ∧
    decodeBytes [0b00010010, 0, 0, 0] = .ok (.envDecrypt, [])

/-! ### Reset (10_state.md R47, 70_reset_and_hazards.md R280) -/

/-- R47: the reset value of every piece of state of the spec. -/
def Obligations.ResetValues : Prop :=
  let r := State.reset
  r.pending = none ∧ r.done = false ∧ r.ovr = false ∧ r.err = 0 ∧ r.prng = none ∧ r.ie = false ∧
    r.padMode.bits = (if config.hasEntropy then 1 else 2) ∧ r.seq = 0 ∧ r.ecount = 0 ∧ r.dcount = 0 ∧ r.dlen = 0 ∧
    r.flen = 0 ∧ r.result = 0 ∧ r.errinfo = 0 ∧ r.cand = 0 ∧ r.keyBytes = zeros 16 ∧ r.blkBytes = zeros 16 ∧
    r.seedBytes = zeros 32 ∧ r.dataBytes 256 = zeros 256 ∧ r.frameBytes 512 = zeros 512 ∧
    regValue r 0x080 = 0x01505353 ∧ r.busy = false ∧ r.seeded = false ∧ r.irq = false

/-- R280: a reset puts every piece of the spec's state at its reset value, whatever was pending, and deasserts IRQ; only
the model's agenda and its counts of draws are not the reset state's. -/
def Obligations.ResetEventRestoresResetState : Prop :=
  ∀ s : State, ∃ t, platformResets s = .next t ∧
    t = { State.reset with agenda := t.agenda, entropyDraws := t.entropyDraws, busyDraws := t.busyDraws } ∧
    t.pending = none ∧ t.irq = false

/-- The invariant holds at reset (R47). -/
def Obligations.ResetStateIsInvariant : Prop := Inv State.reset

/-! ### The engine (10_state.md R44, 30_encoding.md R85) -/

/-- Every step keeps the invariant, from every state that has it: the byte arrays stay canonical and hold nothing
outside KEY, BLK, SEED, DATA and FRAME; a pending command has DONE = 0 and ERR = 0 (R66); ERR is never 7 to 15 (R250);
PAD_MODE is never ENTROPY without an entropy source (R25); a PRIME_GEN loop belongs to a pending PRIME_GEN (the model's
own field, log 5). -/
def Obligations.StepKeepsInvariant : Prop := ∀ s t : State, Inv s → step s = .next t → Inv t

/-- R44, R83: when the engine's turn comes with a pending word that decodes to a command, the step is that command's
Complete step, on the state less the event taken off the model's agenda (log 1). -/
def Obligations.StepRunsDecodedCommand : Prop :=
  ∀ (s : State) (w : Word) (i : Instr), s.pending = some w → decode w = .ok i →
    engineActs s = exec i s ∧ (s.agenda = [] → step s = exec i s)

/-- R85: a word that decodes to ILLEGAL completes with ILLEGAL_CMD and changes nothing but STATUS. -/
def Obligations.IllegalWordCompletes : Prop :=
  ∀ (s : State) (w : Word) (r : Reject), s.pending = some w → decode w = .error r →
    ∃ t, engineActs s = .next t ∧ t = { s with err := 1, done := true, pending := none, search := none }

/-- A command placed where the engine takes its next one from is what the very next step runs (the model's own
convention, log 9). -/
def Obligations.PlacedWordRunsNext : Prop :=
  ∀ (s : State) (w : Word) (i : Instr), decode w = .ok i → step (s.withFetchWord 32 w.toNat) = exec i (accept w s)

/-- The engine with nothing pending does nothing, and neither does a machine with nothing left to happen (log 1). -/
def Obligations.IdleEngineWaits : Prop :=
  ∀ s : State, s.pending = none → engineActs s = .next s ∧ (s.agenda = [] → step s = .next s)

/-- R44, R293: with nothing else left to happen, a pending word other than PRIME_GEN completes in one step. -/
def Obligations.PendingCommandCompletes : Prop :=
  ∀ (s : State) (w : Word), s.agenda = [] → s.pending = some w → decode w ≠ .ok .primeGen →
    ∃ t, step s = .next t ∧ t.pending = none ∧ t.done = true

/-- R45, R67, R280 as a rule of the whole machine: a pending word appears only by an idle host write of CMD, and goes
only by its own Complete step or by reset; no host access changes it while it is pending. -/
def Obligations.PendingChangesOnlyAsStated : Prop :=
  ∀ s t : State, step s = .next t →
    t.pending = s.pending ∨
    (∃ v, s.pending = none ∧ s.agenda.head? = some (.write .word 0x000 v) ∧ t.pending = some v) ∨
    (EngineIsNext s ∧ s.pending.isSome = true ∧ t.pending = none ∧ t.done = true) ∨
    (s.agenda.head? = some .reset ∧ t.pending = none)

/-- R13, R66: a command changes nothing outside its write set: no register the host can read elsewhere, no byte outside
the array it writes, neither CTRL nor OVR, no hidden stream but for the prime unit's commands. -/
def Obligations.CommandChangesOnlyItsWriteSet : Prop :=
  ∀ (i : Instr) (s t : State), exec i s = .next t →
    (∀ off, off % 4 = 0 → off < 0x1000 → off ≠ 0x004 → regAt off ∉ writeSet i → regValue t off = regValue s off) ∧
    (∀ a, t.mem.read a = s.mem.read a ∨ (i ∈ [.aesEncBlk, .aesDecBlk] ∧ 0x050 ≤ a ∧ a < 0x060) ∨
      (i = .envEncrypt ∧ 0x200 ≤ a ∧ a < 0x400) ∨ (i = .envDecrypt ∧ 0x100 ≤ a ∧ a < 0x200)) ∧
    t.ie = s.ie ∧ t.padMode = s.padMode ∧ t.ovr = s.ovr ∧
    (i ∈ [.rngSeed, .rngEntropy, .primeTest, .primeGen] ∨ t.prng = s.prng) ∧
    t.agenda = s.agenda ∧ t.readData = s.readData ∧ t.busyDraws = s.busyDraws

/-! ### The host's accesses (20_memory.md) -/

/-- R61: an aligned 32-bit word access below 0x1000 is admitted; any other stops the host's step with BUS_ERROR. -/
def Obligations.InadmissibleAccessFaults : Prop :=
  ∀ (s : State) (width : AccessWidth) (off : Nat) (v : Word),
    let reads := step { s with agenda := .read width off :: s.agenda }
    let writes := step { s with agenda := .write width off v :: s.agenda }
    if width = .word ∧ off % 4 = 0 ∧ off < 0x1000 then (∃ t, reads = .next t) ∧ ∃ t, writes = .next t
    else reads = .fault (.busError width off) ∧ writes = .fault (.busError width off)

/-- R61, R254: nothing but such an access makes a step fault, and no step is refused. -/
def Obligations.OnlyBusErrorsStop : Prop :=
  ∀ s : State, (∀ e, s.agenda.head? = some e → safeEvent e = true) ↔ ∃ t, step s = .next t

/-- R45: acceptance, of every word, legal or not. (No loop of an earlier PRIME_GEN outlives it: the model's own
field.) -/
def Obligations.IdleWriteOfCmdAccepts : Prop :=
  ∀ (s : State) (w : Word), s.pending = none →
    hostWrites 0x000 w s = .next { s with pending := some w, done := false, err := 0, search := none }

/-- R63: what a read returns while no command is pending, register by register; it changes nothing else. -/
def Obligations.IdleReadsReturnRegisters : Prop :=
  ∀ s : State, s.pending = none →
    let reads (off : Nat) (v : Word) := hostReads off s = .next { s with readData := some v }
    reads 0x000 0 ∧
    reads 0x004 (s.err.setWidth 32 <<< 8 ||| (if s.seeded then 8 else 0) ||| (if s.ovr then 4 else 0) |||
      (if s.done then 2 else 0)) ∧
    reads 0x008 (s.padMode.bits.setWidth 32 <<< 1 ||| (if s.ie then 1 else 0)) ∧
    reads 0x00C s.seq ∧ reads 0x010 s.ecount ∧ reads 0x014 s.dcount ∧ reads 0x018 (s.dlen.setWidth 32) ∧
    reads 0x01C (s.flen.setWidth 32) ∧ reads 0x020 s.result ∧ reads 0x024 s.errinfo ∧
    reads 0x028 (s.cand.setWidth 32) ∧ reads 0x02C ((s.cand >>> 32).setWidth 32) ∧ reads 0x080 0x01505353 ∧
    (∀ off, off % 4 = 0 → (0x030 ≤ off ∧ off < 0x050) ∨ (0x060 ≤ off ∧ off < 0x080) ∨ (0x084 ≤ off ∧ off < 0x100) ∨
      (0x400 ≤ off ∧ off < 0x1000) → reads off 0) ∧
    (∀ off, off % 4 = 0 → (0x050 ≤ off ∧ off < 0x060) ∨ (0x100 ≤ off ∧ off < 0x400) →
      reads off (s.mem.read (off + 3) ++ s.mem.read (off + 2) ++ s.mem.read (off + 1) ++ s.mem.read off))

/-- R63: an admitted read, BUSY or not, changes nothing but the answer and the model's count of draws. -/
def Obligations.ReadsHaveNoSideEffect : Prop :=
  ∀ (s : State) (off : Nat), off % 4 = 0 → off < 0x1000 →
    ∃ t, hostReads off s = .next t ∧ t = { s with readData := t.readData, busyDraws := t.busyDraws }

/-- R66: while a command is pending, a word of the write set its rule lists (R115, R116, R144, R145, R173, R174, R176,
R212, R213, R223, R225: `listedWrite`) reads as a free value, and every other word exactly. The free value is the model's
`config.busyRead` at a count that the read advances (log 4). -/
def Obligations.BusyReadsOfWriteSetAreFree : Prop :=
  ∀ (s : State) (w : Word) (off : Nat), s.pending = some w → off % 4 = 0 → off < 0x1000 →
    ((∃ i, decode w = .ok i ∧ listedWrite i off = true) →
      hostReads off s =
        .next { s with readData := some (config.busyRead s.busyDraws), busyDraws := s.busyDraws + 1 }) ∧
    ((∀ i, decode w = .ok i → listedWrite i off = false) →
      hostReads off s = .next { s with readData := some (regValue s off) })

/-- R66: STATUS always reads exactly while a command runs, with BUSY = 1, DONE = 0 and ERR = 0. -/
def Obligations.BusyStatusReadsExactly : Prop :=
  ∀ s : State, Inv s → s.pending.isSome = true →
    hostReads 0x004 s =
      .next { s with readData := some ((if s.seeded then 8 else 0) ||| (if s.ovr then 4 else 0) ||| 1) }

/-- R64: idle writes of the control registers; what is read-only or reserved ignores a write. -/
def Obligations.IdleWritesSetRegisters : Prop :=
  ∀ (s : State) (v : Word), s.pending = none →
    hostWrites 0x004 v s =
      .next { s with done := s.done && !v.getLsbD 1, ovr := s.ovr && !v.getLsbD 2 } ∧
    hostWrites 0x00C v s = .next { s with seq := v } ∧
    hostWrites 0x010 v s = .next { s with ecount := v } ∧
    hostWrites 0x018 v s = .next { s with dlen := v.setWidth 16 } ∧
    hostWrites 0x01C v s = .next { s with flen := v.setWidth 16 } ∧
    (∃ n : Cand, hostWrites 0x028 v s = .next { s with cand := n } ∧ n.setWidth 32 = v ∧ n >>> 32 = s.cand >>> 32) ∧
    (∃ n : Cand, hostWrites 0x02C v s = .next { s with cand := n } ∧ (n >>> 32).setWidth 32 = v ∧
      n.setWidth 32 = s.cand.setWidth 32) ∧
    (∀ off, off % 4 = 0 → off = 0x014 ∨ off = 0x020 ∨ off = 0x024 ∨ (0x030 ≤ off ∧ off < 0x040) ∨
      (0x080 ≤ off ∧ off < 0x100) ∨ (0x400 ≤ off ∧ off < 0x1000) → hostWrites off v s = .next s)

/-- R25, R64: an idle write of CTRL takes IE from bit 0 and PAD_MODE from bits 2:1; 3 leaves PAD_MODE, and so does 1
when HAS_ENTROPY is false. -/
def Obligations.PadModeIsWarl : Prop :=
  ∀ (s : State) (v : Word), s.pending = none →
    ∃ m, hostWrites 0x008 v s = .next { s with ie := v.getLsbD 0, padMode := m } ∧
      (v.extractLsb' 1 2 = 0 → m = .zero) ∧
      (v.extractLsb' 1 2 = 1 → m = if config.hasEntropy then .entropy else s.padMode) ∧
      (v.extractLsb' 1 2 = 2 → m = .deterministic) ∧
      (v.extractLsb' 1 2 = 3 → m = s.padMode)

/-- R62: an idle word write into a byte array stores bits 7:0, 15:8, 23:16, 31:24 at o, o+1, o+2, o+3, and nothing
else. -/
def Obligations.IdleWritesStoreBytesLittleEndian : Prop :=
  ∀ (s : State) (v : Word) (off : Nat), s.pending = none → off % 4 = 0 →
    (0x040 ≤ off ∧ off < 0x080) ∨ (0x100 ≤ off ∧ off < 0x400) →
    ∃ t, hostWrites off v s = .next t ∧ t = { s with mem := t.mem } ∧
      (∀ k < 4, t.mem.read (off + k) = v.extractLsb' (8 * k) 8) ∧
      ∀ a, a < off ∨ off + 4 ≤ a → t.mem.read a = s.mem.read a

/-- R62, R63, R64: a word written while IDLE into BLK, DATA or FRAME reads back as it was written. -/
def Obligations.WindowWordReadsBack : Prop :=
  ∀ (s : State) (v : Word) (off : Nat), s.pending = none → off % 4 = 0 →
    (0x050 ≤ off ∧ off < 0x060) ∨ (0x100 ≤ off ∧ off < 0x400) →
    ∃ t u, hostWrites off v s = .next t ∧ hostReads off t = .next u ∧ u.readData = some v

/-- R67: while a command is pending, a write of an operand, of CTRL or of CMD is dropped and sets OVR; STATUS takes
effect; a read-only or reserved offset ignores the write and sets nothing. -/
def Obligations.BusyWritesAreDropped : Prop :=
  ∀ (s : State) (v : Word) (off : Nat), s.pending.isSome = true → off % 4 = 0 → off < 0x1000 →
    (off ∈ [0x000, 0x008, 0x00C, 0x010, 0x018, 0x01C, 0x028, 0x02C] ∨ (0x040 ≤ off ∧ off < 0x080) ∨
        (0x100 ≤ off ∧ off < 0x400) → hostWrites off v s = .next { s with ovr := true }) ∧
    (off = 0x004 → hostWrites off v s =
        .next { s with done := s.done && !v.getLsbD 1, ovr := s.ovr && !v.getLsbD 2 }) ∧
    (off ∈ [0x014, 0x020, 0x024] ∨ (0x030 ≤ off ∧ off < 0x040) ∨ (0x080 ≤ off ∧ off < 0x100) ∨ 0x400 ≤ off →
      hostWrites off v s = .next s)

/-- R34, R36, R260: no read tells two states apart that differ in KEY and SEED only: a word outside the hazard of R66
answers the same in both, and a word in it answers a draw in each, the model's free value at that state's own count (log
4), so that nothing of KEY or SEED is in it. -/
def Obligations.SecretsCannotBeReadBack : Prop :=
  ∀ s t : State, SameButSecrets s t → ∀ off, off % 4 = 0 → off < 0x1000 →
    ∃ s' t', hostReads off s = .next s' ∧ hostReads off t = .next t' ∧
      (inHazard s off = false → s'.readData = t'.readData) ∧
      (inHazard s off = true → s'.readData = some (config.busyRead s.busyDraws) ∧
        t'.readData = some (config.busyRead t.busyDraws))

/-- R34, R36, R41 as rules of the whole machine: KEY and SEED bytes change only by an idle host write of their own word
or by reset. -/
def Obligations.SecretsChangeOnlyByHostOrReset : Prop :=
  ∀ s t : State, step s = .next t → ∀ a, 0x040 ≤ a ∧ a < 0x050 ∨ 0x060 ≤ a ∧ a < 0x080 →
    t.mem.read a = s.mem.read a ∨
    (∃ v, s.pending = none ∧ s.agenda.head? = some (.write .word (a - a % 4) v) ∧
      t.mem.read a = v.extractLsb' (8 * (a % 4)) 8) ∨
    (s.agenda.head? = some .reset ∧ t.mem.read a = 0)

/-- R46, R259: IRQ is DONE and IE; it is asserted from a completion on exactly if IE is set, and an acceptance, a
write of 1 to DONE and a write of CTRL that clears IE deassert it. -/
def Obligations.InterruptFollowsCompletion : Prop :=
  (∀ s : State, s.irq = (s.done && s.ie)) ∧
    (∀ s t : State, s.pending.isSome = true → engineActs s = .next t → t.pending = none → t.irq = s.ie) ∧
    (∀ (s t : State) (v : Word), v.getLsbD 1 = true → hostWrites 0x004 v s = .next t → t.irq = false) ∧
    (∀ (s t : State) (w : Word), s.pending = none → hostWrites 0x000 w s = .next t → t.irq = false) ∧
    (∀ (s t : State) (v : Word), s.pending = none → v.getLsbD 0 = false → hostWrites 0x008 v s = .next t →
      t.irq = false)

/-! ### AES (40_aes_block.md) -/

/-- R104: the table is the algebraic S-box, `A(b^-1) xor 0x63` with 0 taken to 0. -/
def Obligations.SboxIsAffineInverse : Prop :=
  ∀ b : Byte, ∃ i : Byte, (b = 0 → i = 0) ∧ (b ≠ 0 → gfMul b i = 1) ∧
    sbox b = (i ^^^ i.rotateLeft 1 ^^^ i.rotateLeft 2 ^^^ i.rotateLeft 3 ^^^ i.rotateLeft 4) ^^^ 0x63

/-- R113: the inverse law, both ways, for every key and every block of 16 bytes. -/
def Obligations.AesDecryptInvertsEncrypt : Prop :=
  ∀ key b : List Byte, b.length = 16 → aes128Dec key (aes128Enc key b) = b ∧ aes128Enc key (aes128Dec key b) = b

/-- R114: block j of ECB over a byte string is the cipher of block j alone, so equal blocks give equal blocks. -/
def Obligations.EcbTransformsBlocksAlone : Prop :=
  ∀ (key x : List Byte) (nb j : Nat), j < nb → 16 * nb ≤ x.length →
    (ecbEnc key nb x).length = 16 * nb ∧ (ecbDec key nb x).length = 16 * nb ∧
      ((ecbEnc key nb x).drop (16 * j)).take 16 = aes128Enc key ((x.drop (16 * j)).take 16) ∧
      ((ecbDec key nb x).drop (16 * j)).take 16 = aes128Dec key ((x.drop (16 * j)).take 16)

/-- R115: AES_ENC_BLK, word 0x00000001, completes with BLK encrypted under KEY in place, and changes nothing else. -/
def Obligations.AesEncBlkEncryptsInPlace : Prop :=
  decode 0x00000001 = .ok .aesEncBlk ∧ ∀ s : State, ∃ t, exec .aesEncBlk s = .next t ∧
    t.blkBytes = aes128Enc s.keyBytes s.blkBytes ∧
    t = { s with mem := t.mem, err := 0, done := true, pending := none, search := none } ∧
    ∀ a, a < 0x050 ∨ 0x060 ≤ a → t.mem.read a = s.mem.read a

/-- R116: AES_DEC_BLK, word 0x00000002, completes with BLK decrypted under KEY in place, and changes nothing else. -/
def Obligations.AesDecBlkDecryptsInPlace : Prop :=
  decode 0x00000002 = .ok .aesDecBlk ∧ ∀ s : State, ∃ t, exec .aesDecBlk s = .next t ∧
    t.blkBytes = aes128Dec s.keyBytes s.blkBytes ∧
    t = { s with mem := t.mem, err := 0, done := true, pending := none, search := none } ∧
    ∀ a, a < 0x050 ∨ 0x060 ≤ a → t.mem.read a = s.mem.read a

/-- R116, R286: AES_ENC_BLK then AES_DEC_BLK under the same KEY restore the whole of a canonical memory. -/
def Obligations.AesEncThenDecRestoresBlk : Prop :=
  ∀ s : State, s.mem.wf → ∃ t u, exec .aesEncBlk s = .next t ∧ exec .aesDecBlk t = .next u ∧ u.mem = s.mem

/-! ### Checksum (41_checksum.md) -/

/-- R144: CK_CALC, word 0x00000008. -/
def Obligations.CkCalcWritesChecksum : Prop :=
  decode 0x00000008 = .ok .ckCalc ∧ ∀ s : State,
    (512 < s.flen.toNat →
      exec .ckCalc s = .next { s with err := 3, done := true, pending := none, search := none }) ∧
    (s.flen.toNat ≤ 512 →
      exec .ckCalc s = .next { s with
        result := (config.ck16 (s.frameBytes s.flen.toNat)).setWidth 32
        err := 0, done := true, pending := none, search := none })

/-- R145: CK_VERIFY, word 0x00000009, compares the checksum of all but the last two bytes with those two, low byte
first. -/
def Obligations.CkVerifyComparesTrailer : Prop :=
  decode 0x00000009 = .ok .ckVerify ∧ ∀ s : State, let n := s.flen.toNat
    let ck := config.ck16 (s.frameBytes (n - 2))
    let stored : Half := s.mem.read (0x200 + (n - 1)) ++ s.mem.read (0x200 + (n - 2))
    (n < 2 ∨ 512 < n →
      exec .ckVerify s = .next { s with err := 3, done := true, pending := none, search := none }) ∧
    (2 ≤ n → n ≤ 512 → ck = stored →
      exec .ckVerify s = .next { s with
        result := 0x10000 ||| ck.setWidth 32, err := 0, done := true, pending := none, search := none }) ∧
    (2 ≤ n → n ≤ 512 → ck ≠ stored →
      exec .ckVerify s = .next { s with
        result := ck.setWidth 32, err := 4, done := true, pending := none, search := none })

/-- R142, R145: whatever CK16 is, a frame whose last two bytes are LE16 of the checksum of the rest verifies. -/
def Obligations.CkVerifyAcceptsOwnChecksum : Prop :=
  ∀ s : State, 2 ≤ s.flen.toNat → s.flen.toNat ≤ 512 →
    s.mem.bytes (0x200 + (s.flen.toNat - 2)) 2 = le16 (config.ck16 (s.frameBytes (s.flen.toNat - 2))) →
    ∃ t, exec .ckVerify s = .next t ∧ t.err = 0 ∧ t.result.getLsbD 16 = true

/-! ### Envelope (42_envelope.md) -/

/-- R162: packing_len is the smallest P that makes `7 + L + P` a multiple of 16, lies in 0..15, and has the rule's
example values. -/
def Obligations.PackingLenIsSmallestPad : Prop :=
  (∀ l p : Nat, (7 + l + packingLen l) % 16 = 0 ∧ packingLen l ≤ 15 ∧ ((7 + l + p) % 16 = 0 → packingLen l ≤ p)) ∧
    packingLen 0 = 9 ∧ packingLen 9 = 0 ∧ packingLen 10 = 15 ∧ packingLen 255 = 10

/-- R173: PACKING_LEN, word 0x00000010. -/
def Obligations.PackingLenCommandWritesResult : Prop :=
  decode 0x00000010 = .ok .packingLen ∧ ∀ s : State, exec .packingLen s = .next { s with
    result := BitVec.ofNat 32 ((16 - (7 + s.dlen.toNat) % 16) % 16)
    err := 0, done := true, pending := none, search := none }

/-- R174 (word 0x00000011), R175 with R160, R164 to R166 and R170: ENV_ENCRYPT. Too much data: ERRINFO and DATA_LEN,
and nothing else. Otherwise the whole frame, field by field, and the registers; the entropy pad is the model's free
value (log 4). -/
def Obligations.EnvEncryptBuildsFrame : Prop :=
  decode 0x00000011 = .ok .envEncrypt ∧ ∀ s : State, let l := s.dlen.toNat
    let p := (16 - (7 + l) % 16) % 16
    let n := 8 + l + p
    (config.med.val < l →
      exec .envEncrypt s = .next { s with
        errinfo := BitVec.ofNat 32 (config.med.val * 65536 + l)
        err := 2, done := true, pending := none, search := none }) ∧
    (l ≤ config.med.val →
      ∃ (t : State) (pad body env : List Byte), exec .envEncrypt s = .next t ∧ pad.length = p ∧
        (s.padMode = .zero → pad = zeros p) ∧
        (s.padMode = .entropy → pad = entropyBytes config s.entropyDraws p) ∧
        (s.padMode = .deterministic →
          pad = (config.padDet
            (config.startMarker :: BitVec.ofNat 8 l :: (le32 s.ecount ++ s.dataBytes l ++ zeros p ++ zeros 2))
            (le32 s.seq) p).toList) ∧
        body = config.startMarker :: BitVec.ofNat 8 l ::
          (le32 (if s.ecount ≠ 0 then s.ecount else s.seq) ++ s.dataBytes l ++ pad) ∧
        env = body ++ le16 (config.ck16 (body.drop config.ckEnvStart.val)) ∧ env.length = n ∧
        t.mem.read 0x200 = config.startMarker ∧
        (∀ k < (n - 1) / 16, t.mem.bytes (0x201 + 16 * k) 16 =
          aes128Enc s.keyBytes ((env.drop (1 + 16 * k)).take 16)) ∧
        (∀ a, 0x200 + n ≤ a → a < 0x400 → t.mem.read a = 0) ∧
        (∀ a, a < 0x200 ∨ 0x400 ≤ a → t.mem.read a = s.mem.read a) ∧
        t = { s with
          mem := t.mem
          flen := BitVec.ofNat 16 n
          result := BitVec.ofNat 32 p
          ecount := 0
          seq := s.seq + 1
          entropyDraws := if s.padMode = .entropy then s.entropyDraws + p else s.entropyDraws
          err := 0, done := true, pending := none, search := none })

/-- R180, R163: the encrypted part is whole blocks, and after a successful ENV_ENCRYPT FLEN is 1 plus a multiple of 16,
between 17 and 273. -/
def Obligations.EnvEncryptFrameIsBlockAligned : Prop :=
  ∀ s : State, s.dlen.toNat ≤ config.med.val →
    (7 + s.dlen.toNat + packingLen s.dlen.toNat) % 16 = 0 ∧
      ∃ t, exec .envEncrypt s = .next t ∧ t.err = 0 ∧ (t.flen.toNat - 1) % 16 = 0 ∧ 17 ≤ t.flen.toNat ∧
        t.flen.toNat ≤ 273

/-- R176 with R177, R178 and R251: ENV_DECRYPT, word 0x00000012, every output given by the bytes it reconstructs, past
which it reads 0; FRAME_LEN wins over CK_MISMATCH, and neither stops a write. -/
def Obligations.EnvDecryptReconstructs : Prop :=
  decode 0x00000012 = .ok .envDecrypt ∧ ∀ s : State, let f := s.flen.toNat
    let nb := (min f 512 - 1) / 16
    ∃ (t : State) (byte : Nat → Byte), exec .envDecrypt s = .next t ∧
      byte 0 = s.mem.read 0x200 ∧
      (∀ k < nb, ∀ j < 16,
        byte (1 + 16 * k + j) = (aes128Dec s.keyBytes (s.mem.bytes (0x201 + 16 * k) 16)).getD j 0) ∧
      (∀ i, 1 + 16 * nb ≤ i → byte i = 0) ∧
      (let ld := (byte 1).toNat
        let pd := packingLen ld
        let stored : Half := byte (7 + ld + pd) ++ byte (6 + ld + pd)
        let start := config.ckEnvStart.val
        let computed := config.ck16 ((List.range (6 + ld + pd - start)).map fun i => byte (start + i))
        (∀ i < 256, t.mem.read (0x100 + i) = if i < ld then byte (6 + i) else 0) ∧
        (∀ a, a < 0x100 ∨ 0x200 ≤ a → t.mem.read a = s.mem.read a) ∧
        t = { s with
          mem := t.mem
          dlen := BitVec.ofNat 16 ld
          dcount := byte 5 ++ byte 4 ++ byte 3 ++ byte 2
          result := computed ++ stored
          seq := s.seq + 1
          err :=
            if f < 17 ∨ 512 < f ∨ (f - 1) % 16 ≠ 0 ∨ 7 + ld + pd ≠ 16 * nb then 3
            else if computed ≠ stored then 4 else 0
          done := true, pending := none, search := none })

/-- R179: the round trip, for every PAD_MODE, every pad drawn and every CK16: an ENV_DECRYPT that finds the KEY, FLEN
and frame an ENV_ENCRYPT left gives the data and the count back, with no error, whatever else changed between. -/
def Obligations.EnvelopeRoundTrip : Prop :=
  ∀ s : State, s.dlen.toNat ≤ config.med.val →
    ∃ t, exec .envEncrypt s = .next t ∧ t.err = 0 ∧
      ∀ s' : State, s'.keyBytes = s.keyBytes → s'.flen = t.flen →
        s'.frameBytes t.flen.toNat = t.frameBytes t.flen.toNat →
        ∃ u, exec .envDecrypt s' = .next u ∧ u.err = 0 ∧ u.dlen = s.dlen ∧
          u.dataBytes s.dlen.toNat = s.dataBytes s.dlen.toNat ∧
          (∀ i, s.dlen.toNat ≤ i → i < 256 → u.mem.read (0x100 + i) = 0) ∧
          u.dcount = (if s.ecount ≠ 0 then s.ecount else s.seq)

/-- R181 as a rule of the whole machine: SEQ changes only by +1 at the Complete step of an ENV_ENCRYPT that passes its
length check or of an ENV_DECRYPT, by an idle host write of SEQ, or by reset. -/
def Obligations.SeqChangesOnlyAsStated : Prop :=
  ∀ s t : State, step s = .next t →
    t.seq = s.seq ∨
    (EngineIsNext s ∧ t.seq = s.seq + 1 ∧
      ((s.pending = some (encode .envEncrypt) ∧ s.dlen.toNat ≤ config.med.val) ∨
        s.pending = some (encode .envDecrypt))) ∨
    (∃ v, s.pending = none ∧ s.agenda.head? = some (.write .word 0x00C v) ∧ t.seq = v) ∨
    (s.agenda.head? = some .reset ∧ t.seq = 0)

/-- R258, R176: ENV_DECRYPT does not check FRAME[0]. Two states that differ in that byte only give states that differ at
most in that byte, in ERR and in the recomputed half of RESULT; FRAME_LEN is recorded in both or in neither; and where the
checksum does not cover the marker (CK_ENV_START = 1, R165) ERR and RESULT are equal too: no code reports the marker. -/
def Obligations.EnvDecryptIgnoresMarker : Prop :=
  ∀ s s' : State, s' = { s with mem := s'.mem } → (∀ a, a ≠ 0x200 → s'.mem.read a = s.mem.read a) →
    ∃ t t', exec .envDecrypt s = .next t ∧ exec .envDecrypt s' = .next t' ∧
      t' = { t with mem := t'.mem, err := t'.err, result := t'.result } ∧
      (∀ a, a ≠ 0x200 → t'.mem.read a = t.mem.read a) ∧
      t'.result.extractLsb' 0 16 = t.result.extractLsb' 0 16 ∧
      (t'.err = 3 ↔ t.err = 3) ∧
      (config.ckEnvStart.val = 1 → t'.err = t.err ∧ t'.result = t.result)

/-! ### Prime unit (43_prime.md) -/

/-- R9, R211, R217: whatever the open parameters are, SMALL_PRIMES is a legal table and RNG_RANGE keeps its law; and
every legal table, and every function with the law, is that of some parameters (log 8). -/
def Obligations.ParametersKeepTheirLaws : Prop :=
  (∀ c : Config, (smallPrimes c).Pairwise (· < ·) ∧ (∀ p ∈ smallPrimes c, p.Prime ∧ p < 2 ^ 64) ∧
      2 ∈ smallPrimes c ∧ 3 ∈ smallPrimes c ∧ 5 ∈ smallPrimes c ∧ 7 ∈ smallPrimes c) ∧
    (∀ (c : Config) (st : RngState) (lo hi : Cand), lo ≤ hi →
      lo ≤ (rngRange c st lo hi).1 ∧ (rngRange c st lo hi).1 ≤ hi) ∧
    (∀ l : List Nat, l.Pairwise (· < ·) → (∀ p ∈ l, p.Prime ∧ p < 2 ^ 64) → 2 ∈ l → 3 ∈ l → 5 ∈ l → 7 ∈ l →
      ∃ c : Config, smallPrimes c = l) ∧
    (∀ f : RngState → Cand → Cand → Cand × RngState, (∀ st lo hi, lo ≤ hi → lo ≤ (f st lo hi).1 ∧ (f st lo hi).1 ≤ hi) →
      ∃ c : Config, ∀ st lo hi, lo ≤ hi → rngRange c st lo hi = f st lo hi)

/-- R214: powmod is exact for every 64-bit exponent. -/
def Obligations.PowModIsExact : Prop := ∀ a e n : Nat, e < 2 ^ 64 → powMod a e n = a ^ e % n

/-- R215, R216: 0, 1 and the even numbers above 2 are rejected with no draws. -/
def Obligations.QuickRejectsDrawNothing : Prop :=
  ∀ (c : Config) (n : Cand) (st : RngState), n = 0 ∨ n = 1 ∨ (n.toNat % 2 = 0 ∧ n ≠ 2) → isPrime c n st = (false, st)

/-- R217: trial division, with no draws; what it does not settle is odd and at least 11, and goes on to the drawn
stages. -/
def Obligations.TrialDivisionDrawsNothing : Prop :=
  ∀ (c : Config) (n : Cand) (st : RngState), n ≠ 0 → n ≠ 1 → (n.toNat % 2 = 1 ∨ n = 2) →
    (n.toNat ∈ smallPrimes c → isPrime c n st = (true, st)) ∧
    (n.toNat ∉ smallPrimes c → (∃ p ∈ smallPrimes c, p ∣ n.toNat) → isPrime c n st = (false, st)) ∧
    (n.toNat ∉ smallPrimes c → (∀ p ∈ smallPrimes c, ¬ p ∣ n.toNat) →
      n.toNat % 2 = 1 ∧ 11 ≤ n.toNat ∧ isPrime c n st = drawnVerdict c n st)

/-- R218, R220, R222: the drawn stages take bases from [2, n - 2] in order, 16 for the Fermat test and 16 for the
Miller–Rabin test; the first base that fails its round rejects the candidate and ends the draws, and 32 that pass accept
it. -/
def Obligations.DrawnStagesStopAtFirstFailure : Prop :=
  ∀ (c : Config) (n : Cand) (st : RngState), n ≠ 2 →
    let draw (st' : RngState) := rngRange c st' 2 (n - 2)
    let streamAfter (k : Nat) : RngState := (fun st' => (draw st').2)^[k] st
    let base (k : Nat) : Nat := (draw (streamAfter k)).1.toNat
    let passes (k : Nat) : Prop :=
      if k < 16 then base k ^ (n.toNat - 1) % n.toNat = 1 else mrPasses n.toNat (base k) = true
    (∀ j < 32, (∀ k < j, passes k) → ¬ passes j → drawnVerdict c n st = (false, streamAfter (j + 1))) ∧
      ((∀ k < 32, passes k) → drawnVerdict c n st = (true, streamAfter 32))

/-- R219, R220: for an odd n of at least 3, a Miller–Rabin round passes a base exactly if the base is no witness: with
n - 1 = d * 2^s and d odd, a^d is 1 or some a^(d * 2^r), r < s, is n - 1. -/
def Obligations.MillerRabinRoundPassesNonWitnesses : Prop :=
  ∀ n a : Nat, 3 ≤ n → n % 2 = 1 → n < 2 ^ 64 →
    (mrPasses n a = true ↔
      ∃ d s : Nat, d % 2 = 1 ∧ n - 1 = d * 2 ^ s ∧ (a ^ d % n = 1 ∨ ∃ r < s, a ^ (d * 2 ^ r) % n = n - 1))

/-- R227: every prime below 2^64 is accepted, for every parameters and every stream. -/
def Obligations.PrimesAreAlwaysAccepted : Prop :=
  ∀ (c : Config) (n : Cand) (st : RngState), n.toNat.Prime → (isPrime c n st).1 = true

/-- R212: RNG_SEED, word 0x00000020. -/
def Obligations.RngSeedReplacesStream : Prop :=
  decode 0x00000020 = .ok .rngSeed ∧ ∀ s : State, exec .rngSeed s = .next { s with
    prng := some (config.rngInit (s.mem.bytes 0x060 32)), err := 0, done := true, pending := none, search := none }

/-- R213: RNG_ENTROPY, word 0x00000021, with 32 drawn bytes (the model's free value, log 4), or ILLEGAL_CMD without an
entropy source. -/
def Obligations.RngEntropySeedsFromDraw : Prop :=
  decode 0x00000021 = .ok .rngEntropy ∧ ∀ s : State, exec .rngEntropy s = .next (
    if config.hasEntropy then
      { s with
        prng := some (config.rngInit (entropyBytes config s.entropyDraws 32))
        entropyDraws := s.entropyDraws + 32
        err := 0, done := true, pending := none, search := none }
    else { s with err := 1, done := true, pending := none, search := none })

/-- R223: PRIME_TEST, word 0x00000022. -/
def Obligations.PrimeTestWritesVerdict : Prop :=
  decode 0x00000022 = .ok .primeTest ∧ ∀ s : State,
    (s.prng = none → exec .primeTest s = .next { s with err := 5, done := true, pending := none, search := none }) ∧
    (∀ st, s.prng = some st →
      exec .primeTest s = .next { s with
        result := if (isPrime config s.cand st).1 then 1 else 0
        prng := some (isPrime config s.cand st).2
        err := 0, done := true, pending := none, search := none })

/-- R223: the verdicts of PRIME_TEST that hold whatever the parameters are: a prime CAND gives 1, CAND 0, 1, an even
CAND above 2 and a multiple of 3, 5 or 7 other than these give 0. -/
def Obligations.PrimeTestVerdictsForEveryStream : Prop :=
  ∀ (s : State) (st : RngState), s.prng = some st → ∃ t, exec .primeTest s = .next t ∧ t.err = 0 ∧
    (s.cand.toNat.Prime → t.result = 1) ∧
    (s.cand = 0 ∨ s.cand = 1 ∨ (∃ p, p ∈ [2, 3, 5, 7] ∧ p ∣ s.cand.toNat ∧ s.cand.toNat ≠ p) → t.result = 0)

/-- R225: PRIME_GEN, word 0x00000023: unseeded, and one turn of its loop (R224): at the cap ATTEMPTS with RESULT 0 and
CAND kept; a candidate that passes is returned; one that fails leaves the command pending (the model's own step, log
5). -/
def Obligations.PrimeGenTurn : Prop :=
  decode 0x00000023 = .ok .primeGen ∧ ∀ s : State,
    (s.prng = none → exec .primeGen s = .next { s with err := 5, done := true, pending := none, search := none }) ∧
    (∀ st, s.prng = some st →
      let at0 : Search := (s.search.getD ⟨st, 0⟩)
      let draw := config.rngU64 at0.stream
      let verdict := isPrime config draw.1 draw.2
      exec .primeGen s = .next (
        if 0 < config.primeMaxAttempts ∧ at0.attempts = config.primeMaxAttempts then
          { s with
            result := 0, prng := some at0.stream, err := 6, done := true, pending := none, search := none }
        else if verdict.1 then
          { s with
            cand := draw.1, result := 1, prng := some verdict.2
            err := 0, done := true, pending := none, search := none }
        else { s with search := some ⟨verdict.2, at0.attempts + 1⟩ }))

/-- R224 to R226: PRIME_GEN accepted on a seeded unit computes `new_prime`: if the loop as R224 writes it returns within
k turns, some number of engine turns, at most k, completes the command with what R225 gives; if it does not, k turns
leave it pending with nothing changed that the host can see. So it hangs exactly if the loop never returns. -/
def Obligations.PrimeGenComputesNewPrime : Prop :=
  ∀ (s : State) (st : RngState) (k : Nat), s.pending = some (encode .primeGen) → s.prng = some st → s.search = none →
    match newPrimeWithin config k 0 st with
    | none => ∃ t, engineTurns k s = .next t ∧ t = { s with search := t.search }
    | some (r, st') => ∃ j ≤ k, engineTurns j s = .next (
        match r with
        | some c => { s with
            cand := c, result := 1, prng := some st', err := 0, done := true, pending := none, search := none }
        | none => { s with
            result := 0, prng := some st', err := 6, done := true, pending := none, search := none })

/-- R41 as a rule of the whole machine: only the four commands of the prime unit, and reset, write prng. -/
def Obligations.StreamChangesOnlyByPrimeUnit : Prop :=
  ∀ s t : State, step s = .next t →
    t.prng = s.prng ∨
    (EngineIsNext s ∧
      ∃ i ∈ [Instr.rngSeed, .rngEntropy, .primeTest, .primeGen], s.pending = some (encode i) ∧ t.prng.isSome = true) ∨
    (s.agenda.head? = some .reset ∧ t.prng = none)
end

