-- ==== Sys2Proof/Laws/Memory.lean ====
section
/-!
SUPPORT. The laws of the byte arrays: what a read after a write gives, that a write keeps the canonical form, and that
canonical memories with equal bytes are equal data.
-/
namespace Sys2Proof.Machine

/-! ### Reading -/

@[simp] theorem Memory.read_nil (a : Nat) : Memory.read [] a = 0 := rfl

theorem Memory.read_append (m n : Memory) (a : Nat) :
    Memory.read (m ++ n) a = if a ∈ m.map (·.1) then m.read a else n.read a := by
  induction m with
  | nil => simp
  | cons c m ih =>
    obtain ⟨x, b⟩ := c
    by_cases h : x = a
    · simp [Memory.read, h]
    · have h' : ¬ a = x := fun e => h e.symm
      simp only [List.cons_append, Memory.read, h, if_false, ih, List.map_cons, List.mem_cons, h', false_or]

theorem Memory.read_unlisted {m : Memory} {a : Nat} (h : a ∉ m.map (·.1)) : m.read a = Memory.unlisted := by
  induction m with
  | nil => rfl
  | cons c m ih =>
    obtain ⟨x, b⟩ := c
    simp only [List.map_cons, List.mem_cons, not_or] at h
    simp [Memory.read, Ne.symm h.1, ih h.2]

/-- Cells dropped by their offset do not change what is read at an offset that is kept. -/
theorem Memory.read_filter (m : Memory) (p : Nat → Bool) (a : Nat) (h : p a = true) :
    Memory.read (m.filter fun c => p c.1) a = m.read a := by
  induction m with
  | nil => rfl
  | cons c m ih =>
    obtain ⟨x, b⟩ := c
    by_cases hx : x = a
    · simp [hx, h, Memory.read]
    · by_cases hp : p x = true
      · simp [hp, Memory.read, hx, ih]
      · simp [hp, Memory.read, hx, ih]

theorem mem_cellsFrom_bounds {base : Nat} {bs : List Byte} {c : Host.Cell} (h : c ∈ cellsFrom base bs) :
    base ≤ c.1 ∧ c.1 < base + bs.length := by
  induction bs generalizing base with
  | nil => simp [cellsFrom] at h
  | cons b bs ih =>
    simp only [cellsFrom] at h
    simp only [List.length_cons]
    split at h
    · have := ih h; omega
    · rcases List.mem_cons.mp h with rfl | h
      · simp
      · have := ih h; omega

theorem read_cellsFrom (base : Nat) (bs : List Byte) (a : Nat) :
    Memory.read (cellsFrom base bs) a =
      if base ≤ a ∧ a < base + bs.length then bs.getD (a - base) 0 else Memory.unlisted := by
  induction bs generalizing base with
  | nil =>
    have h : ¬ (base ≤ a ∧ a < base + ([] : List Byte).length) := by simp
    rw [if_neg h]; rfl
  | cons b bs ih =>
    have hl : (b :: bs).length = bs.length + 1 := rfl
    unfold cellsFrom
    by_cases ha : a = base
    · subst ha
      have hin : a ≤ a ∧ a < a + (b :: bs).length := by omega
      rw [if_pos hin]
      split
      · rename_i hb
        rw [ih, if_neg (by omega)]; simp [hb]
      · simp [Memory.read]
    · have key : Memory.read (cellsFrom (base + 1) bs) a =
          if base ≤ a ∧ a < base + (b :: bs).length then (b :: bs).getD (a - base) 0 else Memory.unlisted := by
        rw [ih]
        by_cases hr : base + 1 ≤ a ∧ a < base + 1 + bs.length
        · rw [if_pos hr, if_pos (by omega)]
          obtain ⟨k, rfl⟩ : ∃ k, a = base + 1 + k := ⟨a - base - 1, by omega⟩
          rw [show base + 1 + k - base = k + 1 by omega, show base + 1 + k - (base + 1) = k by omega]
          simp
        · rw [if_neg hr, if_neg (by omega)]
      split
      · exact key
      · simp only [Memory.read, Ne.symm ha, if_false]; exact key

/-- A read after a write: the bytes written inside the range, the old bytes outside it. -/
theorem Memory.read_writeBytes (m : Memory) (base : Nat) (bs : List Byte) (a : Nat) :
    (m.writeBytes base bs).read a =
      if base ≤ a ∧ a < base + bs.length then bs.getD (a - base) 0 else m.read a := by
  unfold Memory.writeBytes
  rw [Memory.read_append, Memory.read_append]
  by_cases h1 : a < base
  · have hnc : a ∉ (cellsFrom base bs).map (·.1) := by
      simp only [List.mem_map, not_exists, not_and]
      intro c hc; have := mem_cellsFrom_bounds hc; omega
    have hr : Memory.read (m.filter fun c => decide (c.1 < base)) a = m.read a :=
      Memory.read_filter m (fun x => decide (x < base)) a (by simpa using h1)
    have hhi : Memory.read (m.filter fun c => decide (base + bs.length ≤ c.1)) a = Memory.unlisted := by
      apply Memory.read_unlisted
      simp only [List.mem_map, List.mem_filter, not_exists, not_and, decide_eq_true_eq]
      intro c hc; omega
    rw [if_neg (show ¬ (base ≤ a ∧ a < base + bs.length) by omega)]
    by_cases hm : a ∈ (m.filter fun c => decide (c.1 < base)).map (·.1)
    · rw [if_pos (by simp only [List.map_append, List.mem_append]; exact .inl hm), if_pos hm, hr]
    · rw [if_neg (by simp only [List.map_append, List.mem_append, not_or]; exact ⟨hm, hnc⟩), hhi, ← hr,
        Memory.read_unlisted hm]
  · have hlo : a ∉ (m.filter fun c => decide (c.1 < base)).map (·.1) := by
      simp only [List.mem_map, List.mem_filter, not_exists, not_and, decide_eq_true_eq]
      intro c hc; omega
    rw [if_neg hlo]
    by_cases h2 : a < base + bs.length
    · rw [if_pos (show base ≤ a ∧ a < base + bs.length by omega)]
      have hc := read_cellsFrom base bs a
      rw [if_pos (by omega)] at hc
      by_cases hm : a ∈ (cellsFrom base bs).map (·.1)
      · rw [if_pos (by simp only [List.map_append, List.mem_append]; exact .inr hm), hc]
      · rw [if_neg (by simp only [List.map_append, List.mem_append, not_or]; exact ⟨hlo, hm⟩), ← hc,
          Memory.read_unlisted hm]
        apply Memory.read_unlisted
        simp only [List.mem_map, List.mem_filter, not_exists, not_and, decide_eq_true_eq]
        intro c hc; omega
    · have hnc : a ∉ (cellsFrom base bs).map (·.1) := by
        simp only [List.mem_map, not_exists, not_and]
        intro c hc; have := mem_cellsFrom_bounds hc; omega
      rw [if_neg (by simp only [List.map_append, List.mem_append, not_or]; exact ⟨hlo, hnc⟩),
        if_neg (show ¬ (base ≤ a ∧ a < base + bs.length) by omega)]
      exact Memory.read_filter m (fun x => decide (base + bs.length ≤ x)) a (by simp; omega)

/-- A write leaves every byte outside its range alone. -/
theorem Memory.read_writeBytes_outside (m : Memory) (base : Nat) (bs : List Byte) (a : Nat)
    (h : a < base ∨ base + bs.length ≤ a) : (m.writeBytes base bs).read a = m.read a := by
  rw [Memory.read_writeBytes, if_neg (by omega)]

@[simp] theorem Memory.bytes_length (m : Memory) (base n : Nat) : (m.bytes base n).length = n := by
  simp [Memory.bytes]

theorem Memory.bytes_getD (m : Memory) (base n i : Nat) (h : i < n) :
    (m.bytes base n).getD i 0 = m.read (base + i) := by
  simp [Memory.bytes, h]

/-- Ranges of bytes are equal when each byte is. -/
theorem Memory.bytes_congr {m m' : Memory} {base n : Nat} (h : ∀ i < n, m.read (base + i) = m'.read (base + i)) :
    m.bytes base n = m'.bytes base n := by
  simp only [Memory.bytes]
  exact List.map_congr_left fun i hi => h i (List.mem_range.mp hi)

/-- Reading back the whole range just written. -/
theorem Memory.bytes_writeBytes (m : Memory) (base : Nat) (bs : List Byte) :
    (m.writeBytes base bs).bytes base bs.length = bs := by
  apply List.ext_getElem
  · simp
  · intro i h1 h2
    simp only [Memory.bytes, List.getElem_map, List.getElem_range, Memory.read_writeBytes]
    rw [if_pos (by omega)]
    simp [h2]

/-- A range that a write does not touch keeps its bytes. -/
theorem Memory.bytes_writeBytes_disjoint (m : Memory) (base : Nat) (bs : List Byte) (base' n : Nat)
    (h : base' + n ≤ base ∨ base + bs.length ≤ base') :
    (m.writeBytes base bs).bytes base' n = m.bytes base' n :=
  Memory.bytes_congr fun i _ => Memory.read_writeBytes_outside m base bs _ (by omega)

/-! ### The canonical form -/

theorem Memory.wf_nil : Memory.wf [] := ⟨List.Pairwise.nil, fun _ h => absurd h List.not_mem_nil⟩

theorem cellsFrom_wf (base : Nat) (bs : List Byte) : Memory.wf (cellsFrom base bs) := by
  induction bs generalizing base with
  | nil => exact Memory.wf_nil
  | cons b bs ih =>
    unfold cellsFrom
    split
    · exact ih _
    · rename_i hb
      refine ⟨List.pairwise_cons.mpr ⟨fun c hc => ?_, (ih _).1⟩, ?_⟩
      · have := mem_cellsFrom_bounds hc; show base < c.1; omega
      · intro c hc
        rcases List.mem_cons.mp hc with rfl | hc
        · exact hb
        · exact (ih _).2 c hc

/-- Every write keeps the canonical form. -/
theorem Memory.wf_writeBytes {m : Memory} (h : m.wf) (base : Nat) (bs : List Byte) : (m.writeBytes base bs).wf := by
  unfold Memory.writeBytes
  refine ⟨?_, ?_⟩
  · rw [List.pairwise_append, List.pairwise_append]
    refine ⟨⟨h.1.filter _, (cellsFrom_wf base bs).1, ?_⟩, h.1.filter _, ?_⟩
    · intro c hc d hd
      have := mem_cellsFrom_bounds hd
      have := (List.mem_filter.mp hc).2
      simp only [decide_eq_true_eq] at this; omega
    · intro c hc d hd
      have hd' := (List.mem_filter.mp hd).2
      simp only [decide_eq_true_eq] at hd'
      rcases List.mem_append.mp hc with hc | hc
      · have := (List.mem_filter.mp hc).2
        simp only [decide_eq_true_eq] at this; omega
      · have := mem_cellsFrom_bounds hc; omega
  · intro c hc
    rcases List.mem_append.mp hc with hc | hc
    · rcases List.mem_append.mp hc with hc | hc
      · exact h.2 c (List.mem_filter.mp hc).1
      · exact (cellsFrom_wf base bs).2 c hc
    · exact h.2 c (List.mem_filter.mp hc).1

theorem Memory.wf_writeWord {m : Memory} (h : m.wf) (off : Nat) (v : Word) : (m.writeWord off v).wf :=
  Memory.wf_writeBytes h off (le32 v)

/-- A write puts cells nowhere but in its range. -/
theorem Memory.mem_writeBytes {m : Memory} {base : Nat} {bs : List Byte} {c : Host.Cell}
    (h : c ∈ m.writeBytes base bs) : c ∈ m ∨ (base ≤ c.1 ∧ c.1 < base + bs.length) := by
  unfold Memory.writeBytes at h
  rcases List.mem_append.mp h with h | h
  · rcases List.mem_append.mp h with h | h
    · exact .inl (List.mem_filter.mp h).1
    · exact .inr (mem_cellsFrom_bounds h)
  · exact .inl (List.mem_filter.mp h).1

/-- In a canonical memory a listed cell is what is read at its offset. -/
theorem Memory.read_of_mem {m : Memory} (h : m.wf) {c : Host.Cell} (hc : c ∈ m) : m.read c.1 = c.2 := by
  induction m with
  | nil => simp at hc
  | cons d m ih =>
    obtain ⟨x, b⟩ := d
    have hp := List.pairwise_cons.mp h.1
    rcases List.mem_cons.mp hc with rfl | hc
    · simp [Memory.read]
    · have hlt : x < c.1 := hp.1 c hc
      simp only [Memory.read, Nat.ne_of_lt hlt, if_false]
      exact ih ⟨hp.2, fun d hd => h.2 d (List.mem_cons_of_mem _ hd)⟩ hc

/-- A canonical memory lists a cell exactly where a byte other than the unlisted one is read. -/
theorem Memory.mem_iff_read {m : Memory} (h : m.wf) (a : Nat) (b : Byte) :
    (a, b) ∈ m ↔ m.read a = b ∧ b ≠ Memory.unlisted := by
  constructor
  · intro hc; exact ⟨Memory.read_of_mem h hc, h.2 _ hc⟩
  · rintro ⟨hr, hb⟩
    by_contra hn
    apply hb
    rw [← hr]
    apply Memory.read_unlisted
    intro hm
    obtain ⟨⟨x, b'⟩, hx, rfl⟩ := List.mem_map.mp hm
    have := Memory.read_of_mem h hx
    simp only at this hr
    rw [this] at hr
    exact hn (hr ▸ hx)

/-- Canonical memories with the same bytes are the same data. -/
theorem Memory.ext_of_read {m m' : Memory} (h : m.wf) (h' : m'.wf) (hr : ∀ a, m.read a = m'.read a) : m = m' := by
  have hp : ∀ {n : Memory}, n.wf → n.Nodup := fun hn =>
    hn.1.imp fun {c d} hlt heq => by subst heq; exact Nat.lt_irrefl _ hlt
  refine List.Perm.eq_of_pairwise (le := fun c d => c.1 < d.1) ?_ h.1 h'.1 ?_
  · intro c d _ _ h1 h2; omega
  · rw [List.perm_ext_iff_of_nodup (hp h) (hp h')]
    rintro ⟨a, b⟩
    rw [Memory.mem_iff_read h, Memory.mem_iff_read h', hr]

end Sys2Proof.Machine
end

