-- ==== Sys2Proof/Laws/State.lean ====
section
/-!
SUPPORT. The small laws of the state: what each named update does to each field, so that no proof unfolds a record
update, and how the derived flags read after them.
-/
namespace Sys2Proof.Machine

/-! ### complete -/

@[simp] theorem complete_seq (c : ErrorCode) (s : State) : (complete c s).seq = s.seq := rfl
@[simp] theorem complete_ecount (c : ErrorCode) (s : State) : (complete c s).ecount = s.ecount := rfl
@[simp] theorem complete_dcount (c : ErrorCode) (s : State) : (complete c s).dcount = s.dcount := rfl
@[simp] theorem complete_result (c : ErrorCode) (s : State) : (complete c s).result = s.result := rfl
@[simp] theorem complete_errinfo (c : ErrorCode) (s : State) : (complete c s).errinfo = s.errinfo := rfl
@[simp] theorem complete_dlen (c : ErrorCode) (s : State) : (complete c s).dlen = s.dlen := rfl
@[simp] theorem complete_flen (c : ErrorCode) (s : State) : (complete c s).flen = s.flen := rfl
@[simp] theorem complete_cand (c : ErrorCode) (s : State) : (complete c s).cand = s.cand := rfl
@[simp] theorem complete_ie (c : ErrorCode) (s : State) : (complete c s).ie = s.ie := rfl
@[simp] theorem complete_padMode (c : ErrorCode) (s : State) : (complete c s).padMode = s.padMode := rfl
@[simp] theorem complete_done (c : ErrorCode) (s : State) : (complete c s).done = true := rfl
@[simp] theorem complete_ovr (c : ErrorCode) (s : State) : (complete c s).ovr = s.ovr := rfl
@[simp] theorem complete_err (c : ErrorCode) (s : State) : (complete c s).err = c.bits := rfl
@[simp] theorem complete_mem (c : ErrorCode) (s : State) : (complete c s).mem = s.mem := rfl
@[simp] theorem complete_prng (c : ErrorCode) (s : State) : (complete c s).prng = s.prng := rfl
@[simp] theorem complete_pending (c : ErrorCode) (s : State) : (complete c s).pending = none := rfl
@[simp] theorem complete_search (c : ErrorCode) (s : State) : (complete c s).search = none := rfl
@[simp] theorem complete_entropyDraws (c : ErrorCode) (s : State) : (complete c s).entropyDraws = s.entropyDraws := rfl
@[simp] theorem complete_busyDraws (c : ErrorCode) (s : State) : (complete c s).busyDraws = s.busyDraws := rfl
@[simp] theorem complete_readData (c : ErrorCode) (s : State) : (complete c s).readData = s.readData := rfl
@[simp] theorem complete_agenda (c : ErrorCode) (s : State) : (complete c s).agenda = s.agenda := rfl

/-! ### accept -/

@[simp] theorem accept_seq (w : Word) (s : State) : (accept w s).seq = s.seq := rfl
@[simp] theorem accept_ecount (w : Word) (s : State) : (accept w s).ecount = s.ecount := rfl
@[simp] theorem accept_dcount (w : Word) (s : State) : (accept w s).dcount = s.dcount := rfl
@[simp] theorem accept_result (w : Word) (s : State) : (accept w s).result = s.result := rfl
@[simp] theorem accept_errinfo (w : Word) (s : State) : (accept w s).errinfo = s.errinfo := rfl
@[simp] theorem accept_dlen (w : Word) (s : State) : (accept w s).dlen = s.dlen := rfl
@[simp] theorem accept_flen (w : Word) (s : State) : (accept w s).flen = s.flen := rfl
@[simp] theorem accept_cand (w : Word) (s : State) : (accept w s).cand = s.cand := rfl
@[simp] theorem accept_ie (w : Word) (s : State) : (accept w s).ie = s.ie := rfl
@[simp] theorem accept_padMode (w : Word) (s : State) : (accept w s).padMode = s.padMode := rfl
@[simp] theorem accept_done (w : Word) (s : State) : (accept w s).done = false := rfl
@[simp] theorem accept_ovr (w : Word) (s : State) : (accept w s).ovr = s.ovr := rfl
@[simp] theorem accept_err (w : Word) (s : State) : (accept w s).err = 0 := rfl
@[simp] theorem accept_mem (w : Word) (s : State) : (accept w s).mem = s.mem := rfl
@[simp] theorem accept_prng (w : Word) (s : State) : (accept w s).prng = s.prng := rfl
@[simp] theorem accept_pending (w : Word) (s : State) : (accept w s).pending = some w := rfl
@[simp] theorem accept_search (w : Word) (s : State) : (accept w s).search = none := rfl
@[simp] theorem accept_entropyDraws (w : Word) (s : State) : (accept w s).entropyDraws = s.entropyDraws := rfl
@[simp] theorem accept_busyDraws (w : Word) (s : State) : (accept w s).busyDraws = s.busyDraws := rfl
@[simp] theorem accept_readData (w : Word) (s : State) : (accept w s).readData = s.readData := rfl
@[simp] theorem accept_agenda (w : Word) (s : State) : (accept w s).agenda = s.agenda := rfl

/-! ### withAgenda -/

@[simp] theorem withAgenda_seq (es : List Event) (s : State) : (withAgenda es s).seq = s.seq := rfl
@[simp] theorem withAgenda_ecount (es : List Event) (s : State) : (withAgenda es s).ecount = s.ecount := rfl
@[simp] theorem withAgenda_dcount (es : List Event) (s : State) : (withAgenda es s).dcount = s.dcount := rfl
@[simp] theorem withAgenda_result (es : List Event) (s : State) : (withAgenda es s).result = s.result := rfl
@[simp] theorem withAgenda_errinfo (es : List Event) (s : State) : (withAgenda es s).errinfo = s.errinfo := rfl
@[simp] theorem withAgenda_dlen (es : List Event) (s : State) : (withAgenda es s).dlen = s.dlen := rfl
@[simp] theorem withAgenda_flen (es : List Event) (s : State) : (withAgenda es s).flen = s.flen := rfl
@[simp] theorem withAgenda_cand (es : List Event) (s : State) : (withAgenda es s).cand = s.cand := rfl
@[simp] theorem withAgenda_ie (es : List Event) (s : State) : (withAgenda es s).ie = s.ie := rfl
@[simp] theorem withAgenda_padMode (es : List Event) (s : State) : (withAgenda es s).padMode = s.padMode := rfl
@[simp] theorem withAgenda_done (es : List Event) (s : State) : (withAgenda es s).done = s.done := rfl
@[simp] theorem withAgenda_ovr (es : List Event) (s : State) : (withAgenda es s).ovr = s.ovr := rfl
@[simp] theorem withAgenda_err (es : List Event) (s : State) : (withAgenda es s).err = s.err := rfl
@[simp] theorem withAgenda_mem (es : List Event) (s : State) : (withAgenda es s).mem = s.mem := rfl
@[simp] theorem withAgenda_prng (es : List Event) (s : State) : (withAgenda es s).prng = s.prng := rfl
@[simp] theorem withAgenda_pending (es : List Event) (s : State) : (withAgenda es s).pending = s.pending := rfl
@[simp] theorem withAgenda_search (es : List Event) (s : State) : (withAgenda es s).search = s.search := rfl
@[simp] theorem withAgenda_entropyDraws (es : List Event) (s : State) : (withAgenda es s).entropyDraws = s.entropyDraws := rfl
@[simp] theorem withAgenda_busyDraws (es : List Event) (s : State) : (withAgenda es s).busyDraws = s.busyDraws := rfl
@[simp] theorem withAgenda_readData (es : List Event) (s : State) : (withAgenda es s).readData = s.readData := rfl
@[simp] theorem withAgenda_agenda (es : List Event) (s : State) : (withAgenda es s).agenda = es := rfl

/-! ### resetEvent -/

@[simp] theorem resetEvent_seq (s : State) : (resetEvent s).seq = State.reset.seq := rfl
@[simp] theorem resetEvent_ecount (s : State) : (resetEvent s).ecount = State.reset.ecount := rfl
@[simp] theorem resetEvent_dcount (s : State) : (resetEvent s).dcount = State.reset.dcount := rfl
@[simp] theorem resetEvent_result (s : State) : (resetEvent s).result = State.reset.result := rfl
@[simp] theorem resetEvent_errinfo (s : State) : (resetEvent s).errinfo = State.reset.errinfo := rfl
@[simp] theorem resetEvent_dlen (s : State) : (resetEvent s).dlen = State.reset.dlen := rfl
@[simp] theorem resetEvent_flen (s : State) : (resetEvent s).flen = State.reset.flen := rfl
@[simp] theorem resetEvent_cand (s : State) : (resetEvent s).cand = State.reset.cand := rfl
@[simp] theorem resetEvent_ie (s : State) : (resetEvent s).ie = State.reset.ie := rfl
@[simp] theorem resetEvent_padMode (s : State) : (resetEvent s).padMode = State.reset.padMode := rfl
@[simp] theorem resetEvent_done (s : State) : (resetEvent s).done = State.reset.done := rfl
@[simp] theorem resetEvent_ovr (s : State) : (resetEvent s).ovr = State.reset.ovr := rfl
@[simp] theorem resetEvent_err (s : State) : (resetEvent s).err = State.reset.err := rfl
@[simp] theorem resetEvent_mem (s : State) : (resetEvent s).mem = State.reset.mem := rfl
@[simp] theorem resetEvent_prng (s : State) : (resetEvent s).prng = State.reset.prng := rfl
@[simp] theorem resetEvent_pending (s : State) : (resetEvent s).pending = State.reset.pending := rfl
@[simp] theorem resetEvent_search (s : State) : (resetEvent s).search = State.reset.search := rfl
@[simp] theorem resetEvent_entropyDraws (s : State) : (resetEvent s).entropyDraws = s.entropyDraws := rfl
@[simp] theorem resetEvent_busyDraws (s : State) : (resetEvent s).busyDraws = s.busyDraws := rfl
@[simp] theorem resetEvent_readData (s : State) : (resetEvent s).readData = State.reset.readData := rfl
@[simp] theorem resetEvent_agenda (s : State) : (resetEvent s).agenda = s.agenda := rfl

/-! ### writeStatus -/

@[simp] theorem writeStatus_seq (v : Word) (s : State) : (writeStatus v s).seq = s.seq := rfl
@[simp] theorem writeStatus_ecount (v : Word) (s : State) : (writeStatus v s).ecount = s.ecount := rfl
@[simp] theorem writeStatus_dcount (v : Word) (s : State) : (writeStatus v s).dcount = s.dcount := rfl
@[simp] theorem writeStatus_result (v : Word) (s : State) : (writeStatus v s).result = s.result := rfl
@[simp] theorem writeStatus_errinfo (v : Word) (s : State) : (writeStatus v s).errinfo = s.errinfo := rfl
@[simp] theorem writeStatus_dlen (v : Word) (s : State) : (writeStatus v s).dlen = s.dlen := rfl
@[simp] theorem writeStatus_flen (v : Word) (s : State) : (writeStatus v s).flen = s.flen := rfl
@[simp] theorem writeStatus_cand (v : Word) (s : State) : (writeStatus v s).cand = s.cand := rfl
@[simp] theorem writeStatus_ie (v : Word) (s : State) : (writeStatus v s).ie = s.ie := rfl
@[simp] theorem writeStatus_padMode (v : Word) (s : State) : (writeStatus v s).padMode = s.padMode := rfl
@[simp] theorem writeStatus_done (v : Word) (s : State) : (writeStatus v s).done = (s.done && !v.getLsbD 1) := rfl
@[simp] theorem writeStatus_ovr (v : Word) (s : State) : (writeStatus v s).ovr = (s.ovr && !v.getLsbD 2) := rfl
@[simp] theorem writeStatus_err (v : Word) (s : State) : (writeStatus v s).err = s.err := rfl
@[simp] theorem writeStatus_mem (v : Word) (s : State) : (writeStatus v s).mem = s.mem := rfl
@[simp] theorem writeStatus_prng (v : Word) (s : State) : (writeStatus v s).prng = s.prng := rfl
@[simp] theorem writeStatus_pending (v : Word) (s : State) : (writeStatus v s).pending = s.pending := rfl
@[simp] theorem writeStatus_search (v : Word) (s : State) : (writeStatus v s).search = s.search := rfl
@[simp] theorem writeStatus_entropyDraws (v : Word) (s : State) : (writeStatus v s).entropyDraws = s.entropyDraws := rfl
@[simp] theorem writeStatus_busyDraws (v : Word) (s : State) : (writeStatus v s).busyDraws = s.busyDraws := rfl
@[simp] theorem writeStatus_readData (v : Word) (s : State) : (writeStatus v s).readData = s.readData := rfl
@[simp] theorem writeStatus_agenda (v : Word) (s : State) : (writeStatus v s).agenda = s.agenda := rfl

/-! ### writeCtrl -/

@[simp] theorem writeCtrl_seq (c : Config) (v : Word) (s : State) : (writeCtrl c v s).seq = s.seq := rfl
@[simp] theorem writeCtrl_ecount (c : Config) (v : Word) (s : State) : (writeCtrl c v s).ecount = s.ecount := rfl
@[simp] theorem writeCtrl_dcount (c : Config) (v : Word) (s : State) : (writeCtrl c v s).dcount = s.dcount := rfl
@[simp] theorem writeCtrl_result (c : Config) (v : Word) (s : State) : (writeCtrl c v s).result = s.result := rfl
@[simp] theorem writeCtrl_errinfo (c : Config) (v : Word) (s : State) : (writeCtrl c v s).errinfo = s.errinfo := rfl
@[simp] theorem writeCtrl_dlen (c : Config) (v : Word) (s : State) : (writeCtrl c v s).dlen = s.dlen := rfl
@[simp] theorem writeCtrl_flen (c : Config) (v : Word) (s : State) : (writeCtrl c v s).flen = s.flen := rfl
@[simp] theorem writeCtrl_cand (c : Config) (v : Word) (s : State) : (writeCtrl c v s).cand = s.cand := rfl
@[simp] theorem writeCtrl_ie (c : Config) (v : Word) (s : State) : (writeCtrl c v s).ie = v.getLsbD 0 := rfl
@[simp] theorem writeCtrl_padMode (c : Config) (v : Word) (s : State) : (writeCtrl c v s).padMode = warlPadMode c.hasEntropy s.padMode (v.extractLsb' 1 2) := rfl
@[simp] theorem writeCtrl_done (c : Config) (v : Word) (s : State) : (writeCtrl c v s).done = s.done := rfl
@[simp] theorem writeCtrl_ovr (c : Config) (v : Word) (s : State) : (writeCtrl c v s).ovr = s.ovr := rfl
@[simp] theorem writeCtrl_err (c : Config) (v : Word) (s : State) : (writeCtrl c v s).err = s.err := rfl
@[simp] theorem writeCtrl_mem (c : Config) (v : Word) (s : State) : (writeCtrl c v s).mem = s.mem := rfl
@[simp] theorem writeCtrl_prng (c : Config) (v : Word) (s : State) : (writeCtrl c v s).prng = s.prng := rfl
@[simp] theorem writeCtrl_pending (c : Config) (v : Word) (s : State) : (writeCtrl c v s).pending = s.pending := rfl
@[simp] theorem writeCtrl_search (c : Config) (v : Word) (s : State) : (writeCtrl c v s).search = s.search := rfl
@[simp] theorem writeCtrl_entropyDraws (c : Config) (v : Word) (s : State) : (writeCtrl c v s).entropyDraws = s.entropyDraws := rfl
@[simp] theorem writeCtrl_busyDraws (c : Config) (v : Word) (s : State) : (writeCtrl c v s).busyDraws = s.busyDraws := rfl
@[simp] theorem writeCtrl_readData (c : Config) (v : Word) (s : State) : (writeCtrl c v s).readData = s.readData := rfl
@[simp] theorem writeCtrl_agenda (c : Config) (v : Word) (s : State) : (writeCtrl c v s).agenda = s.agenda := rfl

/-! ### The derived flags -/

@[simp] theorem complete_busy (c : ErrorCode) (s : State) : (complete c s).busy = false := rfl
@[simp] theorem accept_busy (w : Word) (s : State) : (accept w s).busy = true := rfl
@[simp] theorem complete_irq (c : ErrorCode) (s : State) : (complete c s).irq = s.ie := by simp [State.irq]
@[simp] theorem accept_irq (w : Word) (s : State) : (accept w s).irq = false := by simp [State.irq]
@[simp] theorem recordIf_true (code : ErrorCode) : recordIf true code = code := rfl
@[simp] theorem recordIf_false (code : ErrorCode) : recordIf false code = .ok := rfl

theorem errorCode_bits_le (c : ErrorCode) : c.bits.toNat ≤ 6 := by cases c <;> decide

/-- What is selected is one of the codes recorded, or none was (60_exceptions.md R251). -/
theorem selectCode_mem (cs : List ErrorCode) : selectCode cs = .ok ∨ selectCode cs ∈ cs := by
  induction cs with
  | nil => exact .inl rfl
  | cons c cs ih =>
    unfold selectCode
    split
    · exact .inr (by simp)
    · rcases ih with h | h
      · exact .inl h
      · exact .inr (List.mem_cons_of_mem _ h)

/-- No recorded code is of a higher priority than the one selected (60_exceptions.md R251). -/
theorem selectCode_highest (cs : List ErrorCode) : ∀ c ∈ cs, c.priority ≤ (selectCode cs).priority := by
  induction cs with
  | nil => simp
  | cons d cs ih =>
    intro c hc
    unfold selectCode
    rcases List.mem_cons.mp hc with rfl | hc <;> split
    · exact le_refl _
    · omega
    · exact le_trans (ih c hc) ‹_›
    · exact ih c hc

end Sys2Proof.Machine
end

