-- ==== Sys2Proof/Laws/Machine.lean ====
section
/-!
SUPPORT. One law per shared operation of the machine, saying once everything it can do: the commands, the engine's
turn, one event, one step.
-/
namespace Sys2Proof.Machine

/-! ### Commands -/

/-- The state each command's Complete step leaves. -/
def commandState : Instr → State → State
  | .aesEncBlk, s => complete .ok { s with mem := s.mem.writeBytes blkBase (aes128Enc s.keyBytes s.blkBytes) }
  | .aesDecBlk, s => complete .ok { s with mem := s.mem.writeBytes blkBase (aes128Dec s.keyBytes s.blkBytes) }
  | .ckCalc, s => ckCalc config s
  | .ckVerify, s => ckVerify config s
  | .packingLen, s => packingLenCommand s
  | .envEncrypt, s => envEncrypt config s
  | .envDecrypt, s => envDecrypt config s
  | .rngSeed, s => rngSeed config s
  | .rngEntropy, s => rngEntropy config s
  | .primeTest, s => primeTest config s
  | .primeGen, s => primeGen config s

/-- No command stops: each answers the state `commandState` gives. -/
theorem exec_eq (i : Instr) (s : State) : exec i s = .next (commandState i s) := by cases i <;> rfl

/-- What one turn of the PRIME_GEN loop can do: run into the cap, return a candidate, or go on. -/
theorem searchTurn_cases (c : Config) (p : Search) (s : State) :
    (capReached c p.attempts = true ∧
        searchTurn c p s = complete .attempts { s with prng := some p.stream, result := 0 }) ∨
      (capReached c p.attempts = false ∧ ∃ n st st', c.rngU64 p.stream = (n, st) ∧
        ((isPrime c n st = (true, st') ∧
            searchTurn c p s = complete .ok { s with prng := some st', cand := n, result := 1 }) ∨
          (isPrime c n st = (false, st') ∧ searchTurn c p s = { s with search := some ⟨st', p.attempts + 1⟩ }))) := by
  unfold searchTurn
  cases hc : capReached c p.attempts with
  | true => exact .inl ⟨rfl, by simp⟩
  | false =>
    refine .inr ⟨rfl, (c.rngU64 p.stream).1, (c.rngU64 p.stream).2,
      (isPrime c (c.rngU64 p.stream).1 (c.rngU64 p.stream).2).2, rfl, ?_⟩
    cases hv : (isPrime c (c.rngU64 p.stream).1 (c.rngU64 p.stream).2).1 with
    | true => exact .inl ⟨Prod.ext hv rfl, by simp [hv]⟩
    | false => exact .inr ⟨Prod.ext hv rfl, by simp [hv]⟩

/-! ### The engine's turn, an event, a step -/

theorem engineTurn_idle {s : State} (h : s.pending = none) : engineTurn s = .next s := by simp [engineTurn, h]

theorem engineTurn_command {s : State} {w : Word} {i : Instr} (h : s.pending = some w) (hd : decode w = .ok i) :
    engineTurn s = .next (commandState i s) := by simp [engineTurn, h, hd, exec_eq]

theorem engineTurn_illegal {s : State} {w : Word} {r : Reject} (h : s.pending = some w) (hd : decode w = .error r) :
    engineTurn s = .next (complete .illegalCmd s) := by simp [engineTurn, h, hd, illegalCommand]

/-- What the engine's turn can do: nothing when IDLE, the command's Complete step, or ILLEGAL_CMD. -/
theorem engineTurn_cases (s : State) :
    (s.pending = none ∧ engineTurn s = .next s) ∨
      (∃ w i, s.pending = some w ∧ decode w = .ok i ∧ engineTurn s = .next (commandState i s)) ∨
      (∃ w r, s.pending = some w ∧ decode w = .error r ∧ engineTurn s = .next (complete .illegalCmd s)) := by
  cases hp : s.pending with
  | none => exact .inl ⟨rfl, engineTurn_idle hp⟩
  | some w =>
    cases hd : decode w with
    | ok i => exact .inr (.inl ⟨w, i, rfl, hd, engineTurn_command hp hd⟩)
    | error r => exact .inr (.inr ⟨w, r, rfl, hd, engineTurn_illegal hp hd⟩)

/-- What an admitted write can do, by what it meets (20_memory.md R64, R67). -/
theorem busWrite_eq (c : Config) (off : Nat) (v : Word) (s : State) :
    (s.pending = none ∧ busWrite c off v s = idleWrite c off v s) ∨
      (s.pending.isSome = true ∧ busWrite c off v s = busyWrite off v s) := by
  cases hp : s.pending <;> simp [busWrite, State.busy, hp]

/-- A read changes nothing but what the host was answered and the count of draws (20_memory.md R63, R66). -/
theorem busRead_frame (c : Config) (off : Nat) (s : State) :
    busRead c off s = { s with readData := (busRead c off s).readData, busyDraws := (busRead c off s).busyDraws } := by
  unfold busRead; split <;> rfl

/-- The machine's table of write sets is the list of each command's rule (20_memory.md R66). -/
theorem writeSet_listed (i : Instr) {off : Nat} (h4 : off % 4 = 0) (h : off < 0x1000) :
    (writeSet i).contains (regAt off) = listedWrite i off := by
  by_cases hk : off < 0x030
  · obtain ⟨k, hk, rfl⟩ : ∃ k, k < 12 ∧ off = 4 * k := ⟨off / 4, by omega, by omega⟩
    clear h4 h
    revert k
    cases i <;> decide +kernel
  · rw [regAt, if_neg hk]
    split_ifs <;> cases i <;>
      first
      | rfl
      | exact (decide_eq_true (by omega)).symm
      | exact (decide_eq_false (by simp only [List.mem_cons, List.not_mem_nil, or_false]; omega)).symm
      | exact (decide_eq_false (by omega)).symm

/-- Bit 0 of STATUS is BUSY (20_memory.md R63). -/
theorem statusWord_bit0 (s : State) : (statusWord s).getLsbD 0 = s.busy := by
  unfold statusWord flagBit
  cases s.busy <;> cases s.done <;> cases s.ovr <;> cases s.seeded <;> simp

/-- STATUS is never in the hazard (20_memory.md R66). -/
theorem inHazard_status (s : State) : inHazard s statusOffset = false := by
  unfold inHazard
  split
  · rfl
  · unfold wordWriteSet
    split
    · rename_i i _; cases i <;> rfl
    · rfl

/-- A poll answers STATUS; it is repeated, after a turn of the engine, exactly while a command is pending, and changes
nothing of the block (30_encoding.md R88). -/
theorem hostWait_eq (c : Config) (s : State) :
    hostWait c s = .next { s with
      readData := some (statusWord s)
      agenda := if s.busy then .engine :: .wait :: s.agenda else s.agenda } := by
  have hr : busRead c statusOffset s = { s with readData := some (statusWord s) } := by
    rw [busRead, inHazard_status]; rfl
  rw [hostWait, hr, afterPoll]
  simp only [Option.getD_some, statusWord_bit0]
  split <;> rfl

theorem step_nil {s : State} (h : s.agenda = []) : step s = engineTurn s := by simp [step, runNextEvent, h]

theorem step_cons {s : State} {e : Event} {rest : List Event} (h : s.agenda = e :: rest) :
    step s = perform e (withAgenda rest s) := by simp [step, runNextEvent, h]

/-- What a step that answers a next state did: an engine's turn, an admitted read or write, a reset, or a poll. -/
theorem step_cases {s t : State} (h : step s = .next t) :
    (EngineIsNext s ∧ engineTurn (withAgenda s.agenda.tail s) = .next t) ∨
      (∃ off, s.agenda.head? = some (.read .word off) ∧ off % 4 = 0 ∧ off < 0x1000 ∧
        t = busRead config off (withAgenda s.agenda.tail s)) ∨
      (∃ off v, s.agenda.head? = some (.write .word off v) ∧ off % 4 = 0 ∧ off < 0x1000 ∧
        t = busWrite config off v (withAgenda s.agenda.tail s)) ∨
      (s.agenda.head? = some .reset ∧ t = resetEvent (withAgenda s.agenda.tail s)) ∨
      (s.agenda.head? = some .wait ∧ t = { s with
        readData := some (statusWord s)
        agenda := if s.busy then .engine :: .wait :: s.agenda.tail else s.agenda.tail }) := by
  have hadm : ∀ {wd off}, admitted wd off = true → wd = .word ∧ off % 4 = 0 ∧ off < 0x1000 := by
    intro wd off ha; exact of_decide_eq_true ha
  cases ha : s.agenda with
  | nil =>
    rw [step_nil ha] at h
    refine .inl ⟨.inl ha, ?_⟩
    rw [show withAgenda ([] : List Event).tail s = s by cases s; simp_all [withAgenda]]
    exact h
  | cons e rest =>
    rw [step_cons ha] at h
    cases e with
    | engine => exact .inl ⟨.inr (by simp [ha]), h⟩
    | reset => exact .inr (.inr (.inr (.inl ⟨rfl, by simpa [perform] using h.symm⟩)))
    | wait =>
      simp only [perform, hostWait_eq] at h
      exact .inr (.inr (.inr (.inr ⟨rfl, (Host.Outcome.next.inj h).symm⟩)))
    | read wd off =>
      simp only [perform, hostRead] at h
      split at h
      · obtain ⟨rfl, h4, hlt⟩ := hadm ‹_›
        exact .inr (.inl ⟨off, rfl, h4, hlt, by simpa using h.symm⟩)
      · exact absurd h (by simp)
    | write wd off v =>
      simp only [perform, hostWrite] at h
      split at h
      · obtain ⟨rfl, h4, hlt⟩ := hadm ‹_›
        exact .inr (.inr (.inl ⟨off, v, rfl, h4, hlt, by simpa using h.symm⟩))
      · exact absurd h (by simp)

/-! ### One event at the head of the agenda -/

theorem engineActs_eq (s : State) : engineActs s = engineTurn s := rfl

theorem platformResets_eq (s : State) : platformResets s = .next (resetEvent s) := rfl

theorem hostReads_eq {off : Nat} (s : State) (h4 : off % 4 = 0) (h : off < 0x1000) :
    hostReads off s = .next (busRead config off s) := by
  have ha : admitted .word off = true := by simp [admitted, spaceSize, h4, h]
  simp [hostReads, step, runNextEvent, perform, hostRead, ha, withAgenda]

theorem hostWrites_eq {off : Nat} (v : Word) (s : State) (h4 : off % 4 = 0) (h : off < 0x1000) :
    hostWrites off v s = .next (busWrite config off v s) := by
  have ha : admitted .word off = true := by simp [admitted, spaceSize, h4, h]
  simp [hostWrites, step, runNextEvent, perform, hostWrite, ha, withAgenda]

end Sys2Proof.Machine
end

