-- ==== Sys2Proof/Laws/PerInstr.lean ====
section
/-!
SUPPORT. The per-instruction family CommandWord: what holds of each command's word (30_encoding.md R80, R82, R89).
-/
namespace Sys2Proof.Laws.CommandWord

/-- The command's word has RSV = 0 and an OP of the map, is its OP zero-extended, and decodes to the command; the
command as syntax is well formed. -/
def Statement (i : Instr) : Prop :=
  wordWellFormed (encode i) = true ∧ (encode i).toNat = i.op.toNat ∧ decode (encode i) = .ok i ∧ i.wellFormed = true

theorem aesEncBlk : Statement .aesEncBlk := ⟨rfl, rfl, rfl, rfl⟩
theorem aesDecBlk : Statement .aesDecBlk := ⟨rfl, rfl, rfl, rfl⟩
theorem ckCalc : Statement .ckCalc := ⟨rfl, rfl, rfl, rfl⟩
theorem ckVerify : Statement .ckVerify := ⟨rfl, rfl, rfl, rfl⟩
theorem packingLen : Statement .packingLen := ⟨rfl, rfl, rfl, rfl⟩
theorem envEncrypt : Statement .envEncrypt := ⟨rfl, rfl, rfl, rfl⟩
theorem envDecrypt : Statement .envDecrypt := ⟨rfl, rfl, rfl, rfl⟩
theorem rngSeed : Statement .rngSeed := ⟨rfl, rfl, rfl, rfl⟩
theorem rngEntropy : Statement .rngEntropy := ⟨rfl, rfl, rfl, rfl⟩
theorem primeTest : Statement .primeTest := ⟨rfl, rfl, rfl, rfl⟩
theorem primeGen : Statement .primeGen := ⟨rfl, rfl, rfl, rfl⟩

end Sys2Proof.Laws.CommandWord
end

