-- ==== Sys2Proof/Laws/Words.lean ====
section
/-!
SUPPORT. The laws of multi-byte values (00_scope.md R11, 20_memory.md R62): taking one apart into bytes or halves and
putting it together again, either way round.
-/
namespace Sys2Proof.Machine

/-! ### As numbers -/

theorem append_toNat {m n : Nat} (x : BitVec m) (y : BitVec n) : (x ++ y).toNat = x.toNat * 2 ^ n + y.toNat := by
  rw [BitVec.toNat_append, ← Nat.shiftLeft_add_eq_or_of_lt y.isLt, Nat.shiftLeft_eq]

theorem leWord_toNat (b0 b1 b2 b3 : Byte) :
    (leWord b0 b1 b2 b3).toNat = b0.toNat + 256 * b1.toNat + 65536 * b2.toNat + 16777216 * b3.toNat := by
  show (b3 ++ b2 ++ b1 ++ b0).toNat = _
  simp only [append_toNat]
  omega

theorem joinWords_toNat (hi lo : Word) : (joinWords hi lo).toNat = 4294967296 * hi.toNat + lo.toNat := by
  show (hi ++ lo).toNat = _
  simp only [append_toNat]
  omega

theorem joinHalves_toNat (hi lo : Half) : (joinHalves hi lo).toNat = 65536 * hi.toNat + lo.toNat := by
  show (hi ++ lo).toNat = _
  simp only [append_toNat]
  omega

theorem fromLE16_toNat (lo hi : Byte) : (fromLE16 lo hi).toNat = 256 * hi.toNat + lo.toNat := by
  show (hi ++ lo).toNat = _
  simp only [append_toNat]
  omega

/-! ### Round trips -/

/-- The bytes of a word put together again. -/
@[simp] theorem leWord_extract (v : Word) :
    leWord (v.extractLsb' 0 8) (v.extractLsb' 8 8) (v.extractLsb' 16 8) (v.extractLsb' 24 8) = v := by
  apply BitVec.eq_of_toNat_eq
  have := v.isLt
  rw [leWord_toNat]
  simp only [BitVec.extractLsb'_toNat, Nat.shiftRight_eq_div_pow]
  omega

@[simp] theorem extract_leWord_0 (b0 b1 b2 b3 : Byte) : (leWord b0 b1 b2 b3).extractLsb' 0 8 = b0 := by
  apply BitVec.eq_of_toNat_eq
  have := b0.isLt
  simp only [BitVec.extractLsb'_toNat, Nat.shiftRight_eq_div_pow, leWord_toNat]
  omega

@[simp] theorem extract_leWord_1 (b0 b1 b2 b3 : Byte) : (leWord b0 b1 b2 b3).extractLsb' 8 8 = b1 := by
  apply BitVec.eq_of_toNat_eq
  have := b0.isLt; have := b1.isLt
  simp only [BitVec.extractLsb'_toNat, Nat.shiftRight_eq_div_pow, leWord_toNat]
  omega

@[simp] theorem extract_leWord_2 (b0 b1 b2 b3 : Byte) : (leWord b0 b1 b2 b3).extractLsb' 16 8 = b2 := by
  apply BitVec.eq_of_toNat_eq
  have := b0.isLt; have := b1.isLt; have := b2.isLt
  simp only [BitVec.extractLsb'_toNat, Nat.shiftRight_eq_div_pow, leWord_toNat]
  omega

@[simp] theorem extract_leWord_3 (b0 b1 b2 b3 : Byte) : (leWord b0 b1 b2 b3).extractLsb' 24 8 = b3 := by
  apply BitVec.eq_of_toNat_eq
  have := b0.isLt; have := b1.isLt; have := b2.isLt; have := b3.isLt
  simp only [BitVec.extractLsb'_toNat, Nat.shiftRight_eq_div_pow, leWord_toNat]
  omega

@[simp] theorem fromLE16_extract (v : Half) : fromLE16 (v.extractLsb' 0 8) (v.extractLsb' 8 8) = v := by
  apply BitVec.eq_of_toNat_eq
  have := v.isLt
  rw [fromLE16_toNat]
  simp only [BitVec.extractLsb'_toNat, Nat.shiftRight_eq_div_pow]
  omega

@[simp] theorem joinWords_low (hi lo : Word) : (joinWords hi lo).extractLsb' 0 32 = lo := by
  apply BitVec.eq_of_toNat_eq
  have := lo.isLt
  simp only [BitVec.extractLsb'_toNat, Nat.shiftRight_eq_div_pow, joinWords_toNat]
  omega

@[simp] theorem joinWords_high (hi lo : Word) : (joinWords hi lo).extractLsb' 32 32 = hi := by
  apply BitVec.eq_of_toNat_eq
  have := lo.isLt; have := hi.isLt
  simp only [BitVec.extractLsb'_toNat, Nat.shiftRight_eq_div_pow, joinWords_toNat]
  omega

@[simp] theorem le32_length (v : Word) : (le32 v).length = 4 := rfl

@[simp] theorem le16_length (v : Half) : (le16 v).length = 2 := rfl

@[simp] theorem zeros_length (n : Nat) : (zeros n).length = n := List.length_replicate

end Sys2Proof.Machine
end

