-- ==== Sys2Proof/Tests/Slice0.lean ====
section
/-!
SUPPORT. Tests of the model. Expected results come from the spec: the encodings of 30_encoding.md R82, the examples of
the rules, and the vectors of 95_test_vectors.md (named V-… there) under its bindings IB and SR.
-/
namespace Sys2Proof.Tests

set_option Elab.async false

open Sys2Proof.Machine

/-! ### Words and well-formedness -/

/-- Each command's 32 bits, written out from R82 and the table: RSV is 24 zeros, then OP. -/
theorem test_decode_words :
    [0b00000000000000000000000000000001#32, 0b00000000000000000000000000000010#32,
      0b00000000000000000000000000001000#32, 0b00000000000000000000000000001001#32,
      0b00000000000000000000000000010000#32, 0b00000000000000000000000000010001#32,
      0b00000000000000000000000000010010#32, 0b00000000000000000000000000100000#32,
      0b00000000000000000000000000100001#32, 0b00000000000000000000000000100010#32,
      0b00000000000000000000000000100011#32].map decode =
    [.ok .aesEncBlk, .ok .aesDecBlk, .ok .ckCalc, .ok .ckVerify, .ok .packingLen, .ok .envEncrypt, .ok .envDecrypt,
      .ok .rngSeed, .ok .rngEntropy, .ok .primeTest, .ok .primeGen] := by decide +kernel

/-- V-R1, V-R2 and R84: reserved words are rejected by name. -/
theorem test_decode_rejects :
    decode 0x111 = .error .reservedBits ∧ decode 0x80000001 = .error .reservedBits ∧
      decode 0 = .error (.unknownOp 0) ∧ decode 0x24 = .error (.unknownOp 0x24) ∧
      decode 0xFF = .error (.unknownOp 0xFF) ∧ decodeBytes [0x11, 0, 0] = .error .truncated := by decide +kernel

/-- R62, R80: OP is in the first byte, and what follows the word is handed back. -/
theorem test_decode_bytes : decodeBytes [0x11, 0, 0, 0, 0xAA] = .ok (.envEncrypt, [0xAA]) := by decide +kernel

theorem test_table_word : decodeTableWord 32 0x23 = some .primeGen ∧ decodeTableWord 32 0x111 = none := by
  decide +kernel

/-- A word ill formed for each check of `wordWellFormed`: RSV not zero, OP outside the map. -/
theorem test_ill_formed_words :
    wordRsvZero 0x111 = false ∧ wordWellFormed 0x111 = false ∧ wordOpDefined 0x24 = false ∧
      wordWellFormed 0x24 = false ∧ wordWellFormed 0x12 = true := by decide +kernel

/-! ### Bindings -/

/-- One bit of the CRC of binding IB: polynomial 0x8005, most significant bit first. -/
def crcBits : Nat → Half → Half
  | 0, r => r
  | k + 1, r => crcBits k (if r.getLsbD 15 then (r <<< 1) ^^^ 0x8005 else r <<< 1)

/-- The CRC-16 of binding IB. -/
def crc (bs : List Byte) : Half := bs.foldl (fun (r : Half) (b : Byte) => crcBits 8 (r ^^^ (b.setWidth 16 <<< 8))) 0xFFFF

/-- Eight bytes as a little-endian number. -/
def le64 (bs : List Byte) : Nat := bs.foldr (fun b n => b.toNat + 256 * n) 0

/-- Bindings IB and SR together, with the spec's defaults for CK_ENV_START and PRIME_MAX_ATTEMPTS: SR's scripted stream is coded as a number whose base 2^64 digits are its values. -/
def ibsr : Config where
  base := 0x40000000
  med := 255
  startMarker := 0x7E
  ck16 := crc
  smallPrimesRest := []
  rngInit := fun s => ⟨le64 s⟩
  rngU64 := fun st => (BitVec.ofNat 64 st.code, ⟨st.code / 2 ^ 64⟩)
  rngRangeRaw := fun st lo hi => (lo + BitVec.ofNat 64 (st.code % 2 ^ 64 % (hi.toNat - lo.toNat + 1)), ⟨st.code / 2 ^ 64⟩)
  padDet := fun env count n => Vector.replicate n (BitVec.ofNat 8 (env.length + (count.getD 0 0).toNat))
  hasEntropy := false
  entropy := fun k => BitVec.ofNat 8 (k + 1)
  busyRead := fun k => BitVec.ofNat 32 (0xDEAD0000 + k)

/-- R9 and U8: a Config that does not name them has the stated defaults. -/
theorem test_parameter_defaults : ibsr.ckEnvStart.val = 1 ∧ ibsr.primeMaxAttempts = 0 := ⟨rfl, rfl⟩

/-- The reset state with the zero pad of binding IB. -/
def s0 : State := { State.reset with padMode := .zero }

/-- A state with bytes stored from an offset on. -/
def State.put (s : State) (off : Nat) (bs : List Byte) : State := { s with mem := s.mem.writeBytes off bs }

/-- The key 00 01 .. 0f of FIPS-197 C.1. -/
def keyC1 : List Byte := (List.range 16).map (BitVec.ofNat 8)

/-- The next state of an outcome, for reading a field of it. -/
def after {α : Type} (o : Host.Outcome State Fault Refusal) (f : State → α) : Option α :=
  match o with
  | .next t => some (f t)
  | .fault _ => none
  | .refused _ => none

/-! ### AES -/

/-- V-A1, with the register images of the FIPS-197 C.1 vector. -/
theorem test_aes_enc_words :
    after (execAesEncBlk (State.put (State.put s0 0x40 keyC1) 0x50
        [0x00, 0x11, 0x22, 0x33, 0x44, 0x55, 0x66, 0x77, 0x88, 0x99, 0xaa, 0xbb, 0xcc, 0xdd, 0xee, 0xff]))
      (fun t => ([0x50, 0x54, 0x58, 0x5C].map t.mem.readWord, statusWord t)) =
    some ([0xD8E0C469, 0x30047B6A, 0x80B7CDD8, 0x5AC5B470], 2) := by decide +kernel

/-- V-A3, the FIPS-197 Appendix B vector. -/
theorem test_aes_enc_appendix_b :
    aes128Enc [0x2b, 0x7e, 0x15, 0x16, 0x28, 0xae, 0xd2, 0xa6, 0xab, 0xf7, 0x15, 0x88, 0x09, 0xcf, 0x4f, 0x3c]
      [0x32, 0x43, 0xf6, 0xa8, 0x88, 0x5a, 0x30, 0x8d, 0x31, 0x31, 0x98, 0xa2, 0xe0, 0x37, 0x07, 0x34] =
    [0x39, 0x25, 0x84, 0x1d, 0x02, 0xdc, 0x09, 0xfb, 0xdc, 0x11, 0x85, 0x97, 0x19, 0x6a, 0x0b, 0x32] := by
  decide +kernel

/-- V-A5: the zero key and block, decrypted; all bytes of BLK. -/
theorem test_aes_dec_zero :
    after (execAesDecBlk s0) State.blkBytes =
    some [0x14, 0x0f, 0x0f, 0x10, 0x11, 0xb5, 0x22, 0x3d, 0x79, 0x58, 0x77, 0x17, 0xff, 0xd9, 0xec, 0x3a] := by
  decide +kernel

/-- R116's example, V-A2. -/
theorem test_aes_dec_c1 :
    aes128Dec keyC1 [0x69, 0xc4, 0xe0, 0xd8, 0x6a, 0x7b, 0x04, 0x30, 0xd8, 0xcd, 0xb7, 0x80, 0x70, 0xb4, 0xc5, 0x5a] =
    [0x00, 0x11, 0x22, 0x33, 0x44, 0x55, 0x66, 0x77, 0x88, 0x99, 0xaa, 0xbb, 0xcc, 0xdd, 0xee, 0xff] := by
  decide +kernel

/-- R110's example: w[4] and w[43] for the key of V-A3. -/
theorem test_key_expansion :
    (fun ks : List Block => (ks.length, (ks.drop 1).head?.map (·.c0), ks.getLast?.map (·.c3)))
      (keyExpansion (Block.ofBytes
        [0x2b, 0x7e, 0x15, 0x16, 0x28, 0xae, 0xd2, 0xa6, 0xab, 0xf7, 0x15, 0x88, 0x09, 0xcf, 0x4f, 0x3c])) =
    (11, some ⟨0xa0, 0xfa, 0xfe, 0x17⟩, some ⟨0xb6, 0x63, 0x0c, 0xa6⟩) := by decide +kernel

/-! ### Checksum, binding IB -/

/-- V-C1, V-C3: RESULT and STATUS of CK_CALC. -/
theorem test_ck_calc :
    (fun t => (t.result, statusWord t)) (ckCalc ibsr { State.put s0 0x200 [0x80, 0x01, 0x11] with flen := 3 }) =
        (0x00008265, 2) ∧
      (fun t => (t.result, statusWord t)) (ckCalc ibsr { s0 with flen := 513, result := 7 }) = (7, 0x302) := by
  decide +kernel

/-- V-C4 to V-C7: CK_VERIFY with a right, a wrong, an empty and a short frame. -/
theorem test_ck_verify :
    ([(5, [0x80, 0x01, 0x11, 0x65, 0x82]), (5, [0x80, 0x01, 0x11, 0x00, 0x00]), (2, [0xff, 0xff]), (1, [0x80])] :
        List (Half × List Byte)).map
      (fun x => (fun t => (t.result, statusWord t)) (ckVerify ibsr { State.put s0 0x200 x.2 with flen := x.1 })) =
    [(0x00018265, 2), (0x00008265, 0x402), (0x0001FFFF, 2), (0, 0x302)] := by decide +kernel

/-! ### Envelope, binding IB -/

/-- Table V-P. -/
theorem test_packing_len :
    [0, 1, 3, 8, 9, 10, 16, 25, 26, 255, 0xFFFF].map packingLen = [9, 8, 6, 1, 0, 15, 9, 0, 15, 10, 10] := by
  decide +kernel

theorem test_packing_len_command :
    after (execPackingLen { s0 with dlen := 0xFFFF }) (fun t => (t.result, statusWord t)) = some (10, 2) := by
  decide +kernel

/-- V-E3: an explicit count, no packing. -/
theorem test_env_encrypt_explicit_count :
    (fun t => (t.frameBytes 20, t.flen, t.result, t.ecount, t.seq, statusWord t)) (envEncrypt ibsr
      { State.put (State.put s0 0x40 keyC1) 0x100 [0x10, 0x11, 0x12, 0x13, 0x14, 0x15, 0x16, 0x17, 0x18] with
        dlen := 9, ecount := 0xDEADBEEF, seq := 7 }) =
    ([0x7e, 0x31, 0xe5, 0xfc, 0x37, 0x6b, 0xa5, 0xa5, 0x08, 0x9a, 0xdc, 0x39, 0xa9, 0xa3, 0x7b, 0x27, 0x5e, 0, 0, 0],
      17, 0, 0, 8, 2) := by decide +kernel

/-- V-E4: two blocks, the counter wraps. -/
theorem test_env_encrypt_wrap :
    (fun t => (t.frameBytes 33, t.flen, t.result, t.seq)) (envEncrypt ibsr
      { State.put (State.put s0 0x40
          [0x2b, 0x7e, 0x15, 0x16, 0x28, 0xae, 0xd2, 0xa6, 0xab, 0xf7, 0x15, 0x88, 0x09, 0xcf, 0x4f, 0x3c])
          0x100 [0, 1, 2, 3, 4, 5, 6, 7, 8, 9] with dlen := 10, seq := 0xFFFFFFFF }) =
    ([0x7e, 0x39, 0x86, 0x10, 0x4f, 0x78, 0x7f, 0x44, 0x21, 0x0c, 0xdf, 0x00, 0x04, 0x84, 0x3a, 0xe8, 0xd9,
        0x04, 0xbc, 0x87, 0x06, 0xe6, 0xe6, 0x32, 0xdc, 0x07, 0x8f, 0xff, 0x8b, 0xfd, 0xb9, 0xa8, 0x05],
      33, 15, 0) := by decide +kernel

/-- V-E6: the data-length error. -/
theorem test_env_encrypt_data_len :
    (fun t => (t.errinfo, statusWord t, t.seq, t.flen)) (envEncrypt ibsr { s0 with dlen := 256, seq := 3 }) =
    (0x00FF0100, 0x202, 3, 0) := by decide +kernel

/-- V-E8: env_a and the counter bytes the deterministic pad is given. -/
theorem test_env_step_a :
    envelopeAtStepA ibsr 0 [] = [0x7e, 0, 0, 0, 0, 0, 0, 0, 0, 0, 0, 0, 0, 0, 0, 0, 0] ∧ le32 5 = [5, 0, 0, 0] := by
  decide +kernel

/-- The frame of V-E1. -/
def frameE1 : List Byte :=
  [0x7e, 0xa7, 0x08, 0xfd, 0xec, 0x89, 0xeb, 0xed, 0x43, 0xf0, 0x15, 0x33, 0x1d, 0x7c, 0x19, 0x39, 0x0d]

/-- V-E1 decrypted, V-E7 rows a, c, g, h: (DLEN, DCOUNT, RESULT, ERR, SEQ). -/
theorem test_env_decrypt_rows :
    ([(17, frameE1), (0, frameE1), (18, frameE1 ++ [1]), (17, 0 :: frameE1.drop 1),
        (17, [0x7e, 0x68, 0x50, 0x35, 0x58, 0xb7, 0xea, 0x71, 0x44, 0x39, 0x71, 0xc0, 0x83, 0xb5, 0xf6, 0x69, 0xc8])] :
        List (Half × List Byte)).map
      (fun x => (fun t => (t.dlen, t.dcount, t.result, t.err, t.seq))
        (envDecrypt ibsr { State.put s0 0x200 x.2 with flen := x.1, seq := 6 })) =
    [(0, 5, 0xD405D405, 0, 7), (0, 0, 0xD5800000, 3, 7), (0, 5, 0xD405D405, 3, 7),
      (0, 5, 0xD405D405, 0, 7), (0, 5, 0xD4052B05, 4, 7)] := by decide +kernel

/-- V-E7 row e, a tampered block: its length, its count, its first ten data bytes, and that the length does not fit. -/
theorem test_env_decrypt_tampered :
    (fun env => (envLength env, envCount env, (envData env).take 10, badLength env 1))
      (openFrame { State.put s0 0x200 (frameE1.take 5 ++ [0x88] ++ frameE1.drop 6) with flen := 17 }) =
    (0xC1, 0x30754CA1, [0x38, 0x03, 0xfc, 0x5e, 0x3c, 0x2d, 0xfb, 0x29, 0x08, 0x0a], true) := by decide +kernel

/-! ### Prime unit, binding SR -/

/-- V-Q1 to V-Q5: verdicts that hold for every stream. -/
theorem test_prime_verdicts :
    [0, 1, 2, 3, 7, 4, 0xFFFFFFFFFFFFFFFE, 15, 49, 561, 0xFFFFFFFFFFFFFFFF, 13, 0xFFFFFFFFFFFFFFC5, 143].map
      (fun n => (isPrime ibsr n ⟨0⟩).1) =
    [false, false, true, true, true, false, false, false, false, false, false, true, true, false] := by decide +kernel

/-- V-Q7, V-Q8: one draw rejects 121; base 2 accepts 2047 after 32 draws (a stream of 31 zeros, then 5, then 9). -/
theorem test_prime_draws :
    isPrime ibsr 121 ⟨2 ^ 64 * 9⟩ = (false, ⟨9⟩) ∧ isPrime ibsr 2047 ⟨2 ^ 2048 * 9⟩ = (true, ⟨9⟩) := by decide +kernel

/-- V-G4: PRIME_TEST unseeded; V-Q8 as a command. -/
theorem test_prime_test_command :
    (fun t => (t.result, statusWord t)) (primeTest ibsr { s0 with cand := 11, result := 9 }) = (9, 0x502) ∧
      (fun t => (t.result, statusWord t)) (primeTest ibsr { s0 with cand := 2047, prng := some ⟨0⟩ }) = (1, 0xA) := by
  decide +kernel

/-- V-G1's third attempt: candidate 7 is in the table. -/
theorem test_prime_gen_returns :
    (fun t => (t.cand, t.result, statusWord t, t.prng))
      (primeGen ibsr { s0 with prng := some ⟨0⟩, search := some ⟨⟨7 + 2 ^ 64 * 5⟩, 2⟩, pending := some 0x23 }) =
    (7, 1, 0xA, some ⟨5⟩) := by decide +kernel

/-- V-G1, V-G2: the loop of R224 on the scripted streams; V-G3: the cap. -/
theorem test_new_prime :
    newPrimeWithin ibsr 3 0 ⟨4 + 2 ^ 64 * 121 + 2 ^ 192 * 7⟩ = some (some 7, ⟨0⟩) ∧
      newPrimeWithin ibsr 20 0 ⟨0⟩ = none ∧
      newPrimeWithin { ibsr with primeMaxAttempts := 3 } 20 0 ⟨0⟩ = some (none, ⟨0⟩) := by decide +kernel

/-- V-G2: after a failed attempt STATUS still reads BUSY and SEEDED. -/
theorem test_prime_gen_busy :
    statusWord (primeGen ibsr { s0 with prng := some ⟨0⟩, pending := some 0x23 }) = 9 := by decide +kernel

/-- V-G5, R212's example. -/
theorem test_rng_commands :
    statusWord (rngEntropy ibsr s0) = 0x102 ∧ statusWord (rngEntropy { ibsr with hasEntropy := true } s0) = 0xA ∧
      (fun t => (t.prng, statusWord t)) (rngSeed ibsr (State.put s0 0x60 [4, 0, 0, 0, 0, 0, 0, 0, 0x79])) =
        (some ⟨4 + 2 ^ 64 * 121⟩, 0xA) := by decide +kernel

/-! ### Bus -/

/-- V-R3 and V-R4: PAD_MODE under WARL. -/
theorem test_ctrl_warl :
    ctrlWord (idleWrite ibsr 0x008 0x7 { s0 with padMode := .deterministic }) = 0x5 ∧
      ctrlWord (idleWrite ibsr 0x008 0x2 { s0 with padMode := .deterministic }) = 0x4 := by decide +kernel

/-- V-R5 to V-R8 and R22's little-endian words. -/
theorem test_bus_reads :
    regValue (idleWrite ibsr 0x018 0xFFFF0101 s0) 0x018 = 0x101 ∧
      [0x000, 0x030, 0x040, 0x060, 0xFFC].map (regValue (State.put s0 0x40 keyC1)) = [0, 0, 0, 0, 0] ∧
      regValue s0 0x080 = 0x01505353 ∧ (idleWrite ibsr 0x044 0x07060504 s0).mem.bytes 0x43 5 = [0, 4, 5, 6, 7] ∧
      admitted .byte 0x000 = false ∧ admitted .word 0x002 = false ∧ admitted .word 0x1000 = false ∧
      admitted .word 0xFFC = true := by decide +kernel

/-- V-R9 to V-R11: writes while BUSY, and STATUS. -/
theorem test_busy_writes :
    (fun t => (t.ovr, t.mem)) (busWrite ibsr 0x040 5 { s0 with pending := some 1 }) = (true, []) ∧
      (fun t => (t.done, t.ovr, t.err)) (busWrite ibsr 0x004 6 { s0 with done := true, ovr := true, err := 3 }) =
        (false, false, 3) ∧
      (fun t => (t.ovr, t.result, t.dcount)) (busWrite ibsr 0x020 5 { s0 with pending := some 1 }) = (false, 0, 0) := by
  decide +kernel

/-- R85's example: the word 0x111 completes with ILLEGAL_CMD. -/
theorem test_illegal_word :
    after (step { s0 with pending := some 0x111 }) (fun t => (statusWord t, t.pending)) = some (0x102, none) := by
  decide +kernel

/-- U1: a read of RESULT while CK_CALC runs is a draw, a read of STATUS is not. -/
theorem test_busy_reads :
    (fun t => (t.readData, t.busyDraws)) (busRead ibsr 0x020 { s0 with pending := some 8, busyDraws := 2 }) =
        (some 0xDEAD0002, 3) ∧
      (fun t => (t.readData, t.busyDraws)) (busRead ibsr 0x004 { s0 with pending := some 8, busyDraws := 2 }) =
        (some 1, 2) := by decide +kernel

/-- R101's example: the words of `setkey` for the FIPS-197 key. -/
theorem test_setkey :
    setkey (Vector.ofFn fun i => BitVec.ofNat 8 i.val) =
    [sw 0x040 0x03020100, sw 0x044 0x07060504, sw 0x048 0x0B0A0908, sw 0x04C 0x0F0E0D0C] := by decide +kernel

/-- P1's transaction for `cmd AES_DEC_BLK`; an access at BASE + 0x1C is one at FLEN. -/
theorem test_host_program :
    cmd .aesDecBlk = .write .word 0 2 ∧ readAt ibsr 0x4000001C = some (lw 0x01C) ∧ readAt ibsr 0x40001000 = none := by
  decide +kernel

/-- R88's `run` on a command that completes: while BUSY the poll is repeated after a turn of the engine; the poll that
answers BUSY = 0 ends the loop. -/
theorem test_wait_polls :
    runCommand .packingLen = [.write .word 0 0x10, .wait] ∧
      after (hostWait ibsr { s0 with pending := some 0x10 }) (fun t => (t.readData, t.agenda)) =
        some (some 1, [.engine, .wait]) ∧
      after (hostWait ibsr { s0 with done := true, agenda := [lw 0x020] }) (fun t => (t.readData, t.agenda)) =
        some (some 2, [lw 0x020]) := by decide +kernel

/-- R88's `wait` on V-G1: after the first candidate (4) fails, the loop polls on; after the third (7) passes, it ends. -/
theorem test_wait_prime_gen :
    after (hostWait ibsr (primeGen ibsr { s0 with prng := some ⟨4⟩, pending := some 0x23 })) State.agenda =
        some [.engine, .wait] ∧
      after (hostWait ibsr (primeGen ibsr { s0 with
        prng := some ⟨4⟩, search := some ⟨⟨7⟩, 2⟩, pending := some 0x23 })) State.agenda = some [] := by decide +kernel

/-- The placed command is what the next step runs, from reset on. -/
theorem test_fetch_word :
    after (step (State.reset.withFetchWord 32 0x10)) (fun t => (t.result, statusWord t)) = some (9, 2) := by
  decide +kernel

/-- U9: an unaligned access stops with BUS_ERROR. -/
theorem test_bus_error :
    step { s0 with agenda := [.read .word 0x002] } = .fault (.busError .word 0x002) := rfl

/-! ### Witnesses: for each statement with hypotheses, operands that meet all of them, at the boundaries of its clauses -/

/-- A state of a pending command. -/
def busyWith (w : Word) : State := accept w s0

/-- ReservedWordsAreRejected: each clause, at its boundary words. -/
theorem witness_ReservedWordsAreRejected :
    (0x100#32).toNat / 256 ≠ 0 ∧ (0xFFFFFFFF#32).toNat / 256 ≠ 0 ∧
      ((0xFF#32).toNat / 256 = 0 ∧ (0xFF#32).toNat ∉ [0x01, 0x02, 0x08, 0x09, 0x10, 0x11, 0x12, 0x20, 0x21, 0x22, 0x23]) ∧
      ((0#32).toNat / 256 = 0 ∧ (0#32).toNat ∉ [0x01, 0x02, 0x08, 0x09, 0x10, 0x11, 0x12, 0x20, 0x21, 0x22, 0x23]) ∧
      (0x23#32).toNat ∈ [0x01, 0x02, 0x08, 0x09, 0x10, 0x11, 0x12, 0x20, 0x21, 0x22, 0x23] := by decide +kernel

/-- The invariant in a state with a command pending, where nothing else is as at reset. -/
theorem inv_busy (w : Word) : Inv (busyWith w) where
  canonical := Memory.wf_nil
  arraysOnly := fun _ h => absurd h List.not_mem_nil
  busyFlags := fun _ => ⟨rfl, rfl⟩
  errDefined := Nat.zero_le _
  padLegal := fun _ h => nomatch h
  searchOwned := fun _ h => nomatch h

/-- StepKeepsInvariant, CommandChangesOnlyItsWriteSet, PendingChangesOnlyAsStated, SeqChangesOnlyAsStated,
SecretsChangeOnlyByHostOrReset, StreamChangesOnlyByPrimeUnit: a step with a next state, where a command completes. -/
theorem witness_steps_of_commands :
    Inv (busyWith 0x12) ∧ (∃ t, step (busyWith 0x12) = .next t ∧ t.pending = none ∧ t.seq = 1) ∧
      (∃ t, step (busyWith 0x20) = .next t ∧ t.prng.isSome = true) ∧
      (∃ t, exec .packingLen (busyWith 0x10) = .next t ∧ t.result = 9) :=
  ⟨inv_busy _, ⟨_, rfl, rfl, rfl⟩, ⟨_, rfl, rfl⟩, ⟨_, rfl, rfl⟩⟩

/-- CommandChangesOnlyItsWriteSet: words of and outside a write set, at the ends of the array. -/
theorem witness_write_sets :
    regAt 0x05C ∈ writeSet .aesEncBlk ∧ regAt 0x060 ∉ writeSet .aesEncBlk ∧ regAt 0x04C ∉ writeSet .aesEncBlk ∧
      regAt 0x3FC ∈ writeSet .envEncrypt ∧ regAt 0x400 ∉ writeSet .envEncrypt ∧ regAt 0x1FC ∈ writeSet .envDecrypt ∧
      regAt 0xFFC ∉ writeSet .envDecrypt ∧ regAt 0x000 ∉ writeSet .primeGen := by decide +kernel

/-- The same rules of the whole machine where a host write or a reset makes the change. -/
theorem witness_steps_of_host :
    (∃ t, step { s0 with agenda := [.write .word 0x000 8] } = .next t ∧ t.pending = some 8) ∧
      (∃ t, step { s0 with agenda := [.write .word 0x00C 5] } = .next t ∧ t.seq = 5) ∧
      (∃ t, step { s0 with agenda := [.write .word 0x07C 0x01020304] } = .next t ∧ t.mem.read 0x07F = 1) ∧
      (∃ t, step { busyWith 8 with agenda := [.reset], seq := 5, prng := some ⟨1⟩ } = .next t ∧ t.pending = none ∧
        t.seq = 0 ∧ t.prng = none) :=
  ⟨⟨_, rfl, rfl⟩, ⟨_, rfl, rfl⟩, ⟨_, rfl, by decide +kernel⟩, ⟨_, rfl, rfl, rfl, rfl⟩⟩

/-- StepRunsDecodedCommand, PlacedWordRunsNext, PendingCommandCompletes. -/
theorem witness_decoded_command :
    (busyWith 0x11).pending = some 0x11 ∧ (busyWith 0x11).agenda = [] ∧ decode 0x11 = .ok .envEncrypt ∧
      decode 0x11 ≠ .ok .primeGen ∧ decode 0x111 ≠ .ok .primeGen := by decide +kernel

/-- IllegalWordCompletes. -/
theorem witness_IllegalWordCompletes :
    (busyWith 0x111).pending = some 0x111 ∧ decode 0x111 = .error .reservedBits ∧
      decode 0x24 = .error (.unknownOp 0x24) := by decide +kernel

/-- IdleEngineWaits, IdleWriteOfCmdAccepts, IdleReadsReturnRegisters, IdleWritesSetRegisters, PadModeIsWarl: an IDLE
state whose agenda is empty, and fields of CTRL for each clause. -/
theorem witness_idle :
    s0.pending = none ∧ s0.search = none ∧ s0.agenda = [] ∧ (0x0#32).extractLsb' 1 2 = 0 ∧
      (0x2#32).extractLsb' 1 2 = 1 ∧ (0x5#32).extractLsb' 1 2 = 2 ∧ (0x7#32).extractLsb' 1 2 = 3 := by decide +kernel

/-- IdleReadsReturnRegisters: the last words of the ranges that read 0, and the first and last of those that read bytes;
a word of BLK with four different bytes. -/
theorem witness_idle_reads :
    [0x030, 0x04C, 0x060, 0x07C, 0x084, 0x0FC, 0x400, 0xFFC].map (regValue { State.put s0 0x40 keyC1 with err := 3 }) =
        List.replicate 8 0 ∧
      [0x050, 0x05C, 0x100, 0x3FC].map (regValue (State.put (State.put s0 0x50 keyC1) 0x3FC [1, 2, 3, 4])) =
        [0x03020100, 0x0F0E0D0C, 0, 0x04030201] := by decide +kernel

/-- InadmissibleAccessFaults: each way to be inadmissible, and the last admitted offset. -/
theorem witness_InadmissibleAccessFaults :
    [(AccessWidth.byte, 0x000), (.half, 0x004), (.word, 0x001), (.word, 0xFFE), (.word, 0x1000), (.word, 0xFFC)].map
      (fun x => decide (x.1 = AccessWidth.word ∧ x.2 % 4 = 0 ∧ x.2 < 0x1000)) =
        [false, false, false, false, false, true] := by
  decide +kernel

/-- OnlyBusErrorsStop, ReadsHaveNoSideEffect: an admitted read, at the last word; and an access that is not. -/
theorem witness_admitted :
    safeEvent (.read .word 0xFFC) = true ∧ safeEvent (.read .word 0x1000) = false ∧ 0xFFC % 4 = 0 ∧ 0xFFC < 0x1000 ∧
      ∃ t, step { s0 with agenda := [.read .word 0xFFC] } = .next t :=
  ⟨rfl, rfl, rfl, by decide, _, rfl⟩

/-- BusyReadsOfWriteSetAreFree, BusyStatusReadsExactly, BusyWritesAreDropped: each clause with a command pending. -/
theorem witness_busy :
    (busyWith 0x12).pending = some 0x12 ∧ Inv (busyWith 0x12) ∧ decode 0x12 = .ok .envDecrypt ∧
      listedWrite .envDecrypt 0x1FC = true ∧ listedWrite .envDecrypt 0x200 = false ∧
      listedWrite .envDecrypt 0x004 = false ∧
      (∃ t, hostWrites 0x07C 1 (busyWith 0x12) = .next t ∧ t.ovr = true ∧ t.mem = []) ∧
      (∃ t, hostWrites 0x030 1 (busyWith 0x12) = .next t ∧ t.ovr = false) ∧
      (∃ t, hostWrites 0x004 4 { busyWith 0x12 with ovr := true } = .next t ∧ t.ovr = false) :=
  ⟨rfl, inv_busy _, by decide +kernel, by decide +kernel, by decide +kernel, by decide +kernel,
    ⟨_, rfl, rfl, rfl⟩, ⟨_, rfl, rfl⟩, ⟨_, rfl, rfl⟩⟩

/-- IdleWritesStoreBytesLittleEndian, WindowWordReadsBack: the first and last word of the ranges. -/
theorem witness_byte_array_words :
    ∀ off ∈ [0x040, 0x05C, 0x07C, 0x100, 0x3FC],
      off % 4 = 0 ∧ ((0x040 ≤ off ∧ off < 0x080) ∨ (0x100 ≤ off ∧ off < 0x400)) := by decide +kernel

/-- BusyReadsOfWriteSetAreFree: the rules' lists at their ends, and words just outside them. -/
theorem witness_listed_writes :
    listedWrite .aesEncBlk 0x05C = true ∧ listedWrite .aesDecBlk 0x060 = false ∧ listedWrite .ckVerify 0x020 = true ∧
      listedWrite .envEncrypt 0x3FC = true ∧ listedWrite .envEncrypt 0x400 = false ∧
      listedWrite .primeGen 0x02C = true ∧ listedWrite .primeGen 0x030 = false ∧ listedWrite .rngSeed 0x060 = false := by
  decide +kernel

/-- SecretsCannotBeReadBack: a word in the hazard and one outside it. -/
theorem witness_hazards : inHazard (busyWith 0x08) 0x020 = true ∧ inHazard (busyWith 0x08) 0x040 = false := by
  decide +kernel

/-- SecretsCannotBeReadBack: two states that differ in a KEY byte and in a SEED byte. -/
theorem witness_SecretsCannotBeReadBack :
    SameButSecrets s0 (State.put (State.put s0 0x04F [1]) 0x060 [2]) ∧
      (State.put (State.put s0 0x04F [1]) 0x060 [2]).mem ≠ s0.mem := by
  refine ⟨⟨rfl, fun a hk hs => ?_⟩, by decide +kernel⟩
  show ((s0.mem.writeBytes 0x04F [1]).writeBytes 0x060 [2]).read a = s0.mem.read a
  simp only [keyBase, seedBase] at hk hs
  rw [Memory.read_writeBytes_outside _ _ _ _ (by simp; omega), Memory.read_writeBytes_outside _ _ _ _ (by simp; omega)]

/-- InterruptFollowsCompletion: a completion with IE set, and each deasserting write with IRQ asserted before. -/
theorem witness_InterruptFollowsCompletion :
    (∃ t, engineActs { busyWith 0x10 with ie := true } = .next t ∧ t.pending = none ∧ t.irq = true) ∧
      ({ s0 with ie := true, done := true } : State).irq = true ∧
      (0x2#32).getLsbD 1 = true ∧ (0x6#32).getLsbD 0 = false ∧
      (∃ t, hostWrites 0x004 0x2 { s0 with ie := true, done := true } = .next t) ∧
      (∃ t, hostWrites 0x000 0x1 { s0 with ie := true, done := true } = .next t) ∧
      ∃ t, hostWrites 0x008 0x6 { s0 with ie := true, done := true } = .next t :=
  ⟨⟨_, rfl, rfl, rfl⟩, rfl, rfl, rfl, ⟨_, rfl⟩, ⟨_, rfl⟩, ⟨_, rfl⟩⟩

/-- SboxIsAffineInverse (both clauses), AesDecryptInvertsEncrypt, EcbTransformsBlocksAlone, AesEncThenDecRestoresBlk. -/
theorem witness_aes :
    sbox 0 = 0x63 ∧ gfMul 0x53 0xCA = 1 ∧ sbox 0x53 = 0xED ∧ (zeros 16).length = 16 ∧ 16 * 2 ≤ (zeros 32).length ∧
      (State.put s0 0x50 keyC1).mem.wf := by decide +kernel

/-- CkCalcWritesChecksum, CkVerifyComparesTrailer: FLEN at each boundary. -/
theorem witness_frame_lengths :
    512 < (513 : Half).toNat ∧ (512 : Half).toNat ≤ 512 ∧ (1 : Half).toNat < 2 ∧ 2 ≤ (2 : Half).toNat := by decide

/-- CkVerifyAcceptsOwnChecksum and the matching clause of CkVerifyComparesTrailer: an empty frame and its checksum. -/
theorem witness_own_checksum :
    let s : State := { State.put s0 0x200 (le16 (config.ck16 [])) with flen := 2 }
    2 ≤ s.flen.toNat ∧ s.flen.toNat ≤ 512 ∧
      s.mem.bytes (0x200 + (s.flen.toNat - 2)) 2 = le16 (config.ck16 (s.frameBytes (s.flen.toNat - 2))) :=
  ⟨by decide, by decide, Memory.bytes_writeBytes _ _ _⟩

/-- The other clause of CkVerifyComparesTrailer: the same frame with one bit of its checksum changed. -/
theorem witness_wrong_checksum :
    let s : State := { State.put s0 0x200 (le16 (config.ck16 [] ^^^ 1)) with flen := 2 }
    config.ck16 (s.frameBytes (s.flen.toNat - 2)) ≠ s.mem.read 0x201 ++ s.mem.read 0x200 := by
  intro s h
  have hb : s.mem.bytes 0x200 2 = le16 (config.ck16 [] ^^^ 1) := Memory.bytes_writeBytes _ _ _
  have h0 : s.mem.read 0x200 = (config.ck16 [] ^^^ 1).extractLsb' 0 8 := by
    rw [← Memory.bytes_getD s.mem 0x200 2 0 (by decide), hb]; rfl
  have h1 : s.mem.read 0x201 = (config.ck16 [] ^^^ 1).extractLsb' 8 8 := by
    rw [← Memory.bytes_getD s.mem 0x200 2 1 (by decide), hb]; rfl
  rw [h0, h1] at h
  have h2 := fromLE16_extract (config.ck16 [] ^^^ 1)
  rw [fromLE16, ← h] at h2
  have h3 : config.ck16 [] = config.ck16 [] ^^^ 1 := h2
  have h4 := congrArg (fun x : Half => x.getLsbD 0) h3
  simp at h4

/-- EnvEncryptBuildsFrame, EnvEncryptFrameIsBlockAligned, EnvelopeRoundTrip: a length that always fits, and one that
never does, for each PAD_MODE. -/
theorem witness_env_encrypt :
    s0.dlen.toNat ≤ config.med.val ∧ config.med.val < ({ s0 with dlen := 256 } : State).dlen.toNat ∧
      [PadMode.zero, .entropy, .deterministic].map (fun m => ({ s0 with padMode := m } : State).padMode) =
        [.zero, .entropy, .deterministic] :=
  ⟨Nat.zero_le _, config.med.isLt, rfl⟩

/-- EnvelopeRoundTrip: the state an ENV_ENCRYPT leaves is one an ENV_DECRYPT may find, and so is one with other DATA. -/
theorem witness_EnvelopeRoundTrip :
    let t := envEncrypt ibsr s0
    t.keyBytes = s0.keyBytes ∧ (State.put t 0x100 [1]).keyBytes = s0.keyBytes ∧
      (State.put t 0x100 [1]).frameBytes t.flen.toNat = t.frameBytes t.flen.toNat := by decide +kernel

/-- EnvDecryptIgnoresMarker: parameters under which the checksum does not cover the marker. `config` has them or the
others, and which is open (log 7). -/
theorem witness_marker_not_covered : ibsr.ckEnvStart.val = 1 := rfl

/-- EnvDecryptIgnoresMarker: two states that differ in FRAME[0]. -/
theorem witness_EnvDecryptIgnoresMarker :
    State.put s0 0x200 [5] = { s0 with mem := (State.put s0 0x200 [5]).mem } ∧
      ∀ a, a ≠ 0x200 → (State.put s0 0x200 [5]).mem.read a = s0.mem.read a :=
  ⟨rfl, fun a h => Memory.read_writeBytes_outside _ _ _ _ (by simp; omega)⟩

/-- ParametersKeepTheirLaws: a table, a range and a function with the law. -/
theorem witness_ParametersKeepTheirLaws :
    ([2, 3, 5, 7, 11] : List Nat).Pairwise (· < ·) ∧ (∀ p ∈ [2, 3, 5, 7, 11], p.Prime ∧ p < 2 ^ 64) ∧
      (2 : Cand) ≤ 2 ∧ ∀ (_ : RngState) (lo hi : Cand), lo ≤ hi → lo ≤ lo ∧ lo ≤ hi := by
  refine ⟨by decide, by decide, by decide, fun _ lo hi h => ⟨BitVec.le_refl lo, h⟩⟩

/-- QuickRejectsDrawNothing, TrialDivisionDrawsNothing, MillerRabinRoundPassesNonWitnesses, PrimesAreAlwaysAccepted,
PrimeTestVerdictsForEveryStream: candidates for each clause. -/
theorem witness_candidates :
    (4 : Cand).toNat % 2 = 0 ∧ (4 : Cand) ≠ 2 ∧ (2 : Cand).toNat ∈ smallPrimes config ∧
      9 ∉ smallPrimes ibsr ∧ 3 ∈ smallPrimes ibsr ∧ 3 ∣ 9 ∧
      121 ∉ smallPrimes ibsr ∧ (∀ p ∈ smallPrimes ibsr, ¬ p ∣ 121) ∧
      mrPasses 3 2 = true ∧ mrPasses 9 2 = false ∧ (2 : Cand).toNat.Prime ∧ (7 ∣ 49 ∧ 49 ≠ 7) ∧ (10 : Nat) < 2 ^ 64 := by
  refine ⟨by decide, by decide, ?_, by decide +kernel, by decide +kernel, by decide, by decide +kernel,
    by decide +kernel, by decide +kernel, by decide +kernel, by decide +kernel, by decide, by decide⟩
  exact List.mem_append_left _ (by decide)

/-- DrawnStagesStopAtFirstFailure: a first base that fails, and a stream all of whose bases pass. -/
theorem witness_DrawnStagesStopAtFirstFailure :
    (121 : Cand) ≠ 2 ∧ rngRange ibsr ⟨0⟩ 2 119 = (2, ⟨0⟩) ∧ 2 ^ 120 % 121 ≠ 1 ∧
      rngRange ibsr ⟨0⟩ 2 2045 = (2, ⟨0⟩) ∧ 2 ^ 2046 % 2047 = 1 ∧ mrPasses 2047 2 = true := by decide +kernel

/-- PrimeTestWritesVerdict, PrimeTestVerdictsForEveryStream, PrimeGenTurn, PrimeGenComputesNewPrime: a unit not seeded,
and a seeded one with PRIME_GEN just accepted. -/
theorem witness_prime_unit :
    s0.prng = none ∧ (accept (encode .primeGen) { s0 with prng := some ⟨1⟩ }).prng = some ⟨1⟩ ∧
      (accept (encode .primeGen) { s0 with prng := some ⟨1⟩ }).pending = some (encode .primeGen) ∧
      (accept (encode .primeGen) { s0 with prng := some ⟨1⟩ }).search = none := ⟨rfl, rfl, rfl, rfl⟩

end Sys2Proof.Tests
end

/-!
What a command can change (00_scope.md R13): a relation that says, field by field, that a command changes only
what its write set lists; that every command's Complete step keeps to it; and what the host then reads unchanged.
-/
namespace Sys2Proof.Machine

/-! ### Which offsets name STATUS and the windows a command writes -/

/-- The windows a command can write, as ranges of the register map (10_state.md R22). -/
theorem regAt_eq_array_iff (a : Nat) :
    (regAt a = .blk ↔ 0x050 ≤ a ∧ a < 0x060) ∧
      (regAt a = .data ↔ 0x100 ≤ a ∧ a < 0x200) ∧ (regAt a = .frame ↔ 0x200 ≤ a ∧ a < 0x400) := by
  unfold regAt
  split_ifs
  · split <;> simp only [reduceCtorEq, false_iff] <;> omega
  all_goals simp only [false_iff, true_iff]; omega

theorem offset_of_regAt_eq_status {off : Nat} (h4 : off % 4 = 0) (h : regAt off = .status) : off = 0x004 := by
  unfold regAt at h
  split_ifs at h
  split at h <;> simp only [reduceCtorEq] at h
  omega

/-- The four bytes of an aligned word lie in the same register or window (20_memory.md R62). -/
theorem regAt_add {off k : Nat} (h4 : off % 4 = 0) (hk : k < 4) : regAt (off + k) = regAt off := by
  have hdiv : (off + k) / 4 = off / 4 := by omega
  have hlt : ∀ b, b % 4 = 0 → (off + k < b ↔ off < b) := by omega
  simp (disch := decide) only [regAt, hdiv, hlt]

/-! ### Lengths of the written images -/

theorem packingLen_lt (l : Nat) : packingLen l < 16 := Nat.mod_lt _ (by decide)

@[simp] theorem entropyBytes_length (c : Config) (drawn n : Nat) : (entropyBytes c drawn n).length = n := by
  simp [entropyBytes]

@[simp] theorem padBytes_length (c : Config) (s : State) (data : List Byte) :
    (padBytes c s data).length = packingLen data.length := by
  unfold padBytes
  cases s.padMode <;> simp

@[simp] theorem envelope_length (c : Config) (count : Word) (data pad : List Byte) :
    (envelope c count data pad).length = 8 + data.length + pad.length := by
  simp only [envelope, envelopeBody, List.length_append, List.length_cons, le32_length, le16_length]
  omega

@[simp] theorem dataBytes_length (s : State) (n : Nat) : (s.dataBytes n).length = n := Memory.bytes_length _ _ _

@[simp] theorem encryptEnvelope_length (c : Config) (s : State) :
    (encryptEnvelope c s).length = 8 + s.dlen.toNat + packingLen s.dlen.toNat := by
  simp [encryptEnvelope]

@[simp] theorem aes128Enc_length (key x : List Byte) : (aes128Enc key x).length = 16 := rfl

@[simp] theorem aes128Dec_length (key x : List Byte) : (aes128Dec key x).length = 16 := rfl

theorem ecbMap_length {f : List Byte → List Byte} (hf : ∀ x, (f x).length = 16) (nb : Nat) (x : List Byte) :
    (ecbMap f nb x).length = 16 * nb := by
  induction nb generalizing x with
  | zero => rfl
  | succ nb ih => simp only [ecbMap, List.length_append, hf, ih]; omega

theorem sealEnvelope_length (key env : List Byte) :
    (sealEnvelope key env).length = min 1 env.length + 16 * ((env.length - 1) / 16) := by
  simp [sealEnvelope, ecbEnc, ecbMap_length (aes128Enc_length key)]

/-- A frame that fits its window fills the whole of it with the zeros after it. -/
theorem frameImage_length {frame : List Byte} (h : frame.length ≤ frameSize) : (frameImage frame).length = 512 := by
  simp only [frameImage, List.length_append, zeros_length, frameSize] at h ⊢
  omega

@[simp] theorem envData_length (env : List Byte) : (envData env).length = envLength env := by
  simp [envData, envBytes]

/-- Decrypted data fits its window, as its length is one byte (42_envelope.md R176). -/
theorem dataImage_envData_length (env : List Byte) : (dataImage (envData env)).length = 256 := by
  have hlt : envLength env < 256 := (envByte env 1).isLt
  simp only [dataImage, List.length_append, zeros_length, envData_length, dataSize]
  omega

/-! ### The frame relation -/

/-- From `s` to `t` nothing changed but what command `i` may write (20_memory.md R66). The fields of a completion
(10_state.md R44), `search` (log 5) and `entropyDraws` (log 4) are free. A field that is not named when a proof of this
is built is one that did not change. -/
structure ChangesOnlyWriteSet (i : Instr) (s t : State) : Prop where
  seq : .seq ∉ writeSet i → t.seq = s.seq := by intros; rfl
  ecount : .ecount ∉ writeSet i → t.ecount = s.ecount := by intros; rfl
  dcount : .dcount ∉ writeSet i → t.dcount = s.dcount := by intros; rfl
  dlen : .dlen ∉ writeSet i → t.dlen = s.dlen := by intros; rfl
  flen : .flen ∉ writeSet i → t.flen = s.flen := by intros; rfl
  result : .result ∉ writeSet i → t.result = s.result := by intros; rfl
  errinfo : .errinfo ∉ writeSet i → t.errinfo = s.errinfo := by intros; rfl
  cand : .candLo ∉ writeSet i ∨ .candHi ∉ writeSet i → t.cand = s.cand := by intros; rfl
  arrays : ∀ a, regAt a ∉ writeSet i ∨ regAt a ∉ [.blk, .data, .frame] → t.mem.read a = s.mem.read a := by
    intros; rfl
  prng : i ∉ [.rngSeed, .rngEntropy, .primeTest, .primeGen] → t.prng = s.prng := by intros; rfl
  ie : t.ie = s.ie := by rfl
  padMode : t.padMode = s.padMode := by rfl
  ovr : t.ovr = s.ovr := by rfl
  agenda : t.agenda = s.agenda := by rfl
  readData : t.readData = s.readData := by rfl
  busyDraws : t.busyDraws = s.busyDraws := by rfl

namespace ChangesOnlyWriteSet

variable {i : Instr} {s t : State}

theorem refl (i : Instr) (s : State) : ChangesOnlyWriteSet i s s where

/-- A completion writes flags of STATUS only (10_state.md R44). -/
theorem complete (h : ChangesOnlyWriteSet i s t) (code : ErrorCode) :
    ChangesOnlyWriteSet i s (Machine.complete code t) := { h with }

theorem readWord_eq (h : ChangesOnlyWriteSet i s t) {off : Nat} (h4 : off % 4 = 0) (hn : regAt off ∉ writeSet i) :
    t.mem.readWord off = s.mem.readWord off := by
  have hbyte : ∀ k < 4, t.mem.read (off + k) = s.mem.read (off + k) := fun k hk =>
    h.arrays _ (.inl (by rwa [regAt_add h4 hk]))
  have h0 : t.mem.read off = s.mem.read off := hbyte 0 (by decide)
  rw [Memory.readWord, h0, hbyte 1 (by decide), hbyte 2 (by decide), hbyte 3 (by decide), Memory.readWord]

/-- A word of the register space outside the write set and other than STATUS reads as before. -/
theorem regValue_eq (h : ChangesOnlyWriteSet i s t) {off : Nat} (h4 : off % 4 = 0) (hstatus : off ≠ 0x004)
    (hn : regAt off ∉ writeSet i) : regValue t off = regValue s off := by
  have hn : ∀ {r}, regAt off = r → r ∉ writeSet i := by rintro _ rfl; exact hn
  unfold regValue
  cases hr : regAt off
  case status => exact absurd (offset_of_regAt_eq_status h4 hr) hstatus
  case cmd | key | seed | reserved | id => rfl
  case ctrl => simp only [ctrlWord, h.ie, h.padMode]
  case seq => exact h.seq (hn hr)
  case ecount => exact h.ecount (hn hr)
  case dcount => exact h.dcount (hn hr)
  case dlen => simp only [h.dlen (hn hr)]
  case flen => simp only [h.flen (hn hr)]
  case result => exact h.result (hn hr)
  case errinfo => exact h.errinfo (hn hr)
  case candLo => simp only [h.cand (.inl (hn hr))]
  case candHi => simp only [h.cand (.inr (hn hr))]
  case blk | data | frame => exact h.readWord_eq h4 (hn rfl)

end ChangesOnlyWriteSet

/-- The one window a command's write set can list (20_memory.md R66). -/
theorem window_of_mem_writeSet {i : Instr} {r : Reg} (hr : r ∈ writeSet i) (harr : r ∈ [.blk, .data, .frame]) :
    (i ∈ [.aesEncBlk, .aesDecBlk] ∧ r = .blk) ∨ (i = .envEncrypt ∧ r = .frame) ∨ (i = .envDecrypt ∧ r = .data) := by
  revert r
  cases i <;> decide

/-- The bytes that can differ are those of the one window the command writes. -/
theorem ChangesOnlyWriteSet.read_eq_or {i : Instr} {s t : State} (h : ChangesOnlyWriteSet i s t) (a : Nat) :
    t.mem.read a = s.mem.read a ∨ (i ∈ [.aesEncBlk, .aesDecBlk] ∧ 0x050 ≤ a ∧ a < 0x060) ∨
      (i = .envEncrypt ∧ 0x200 ≤ a ∧ a < 0x400) ∨ (i = .envDecrypt ∧ 0x100 ≤ a ∧ a < 0x200) := by
  by_cases hkeep : regAt a ∉ writeSet i ∨ regAt a ∉ [.blk, .data, .frame]
  · exact .inl (h.arrays a hkeep)
  · right
    obtain ⟨hws, harr⟩ : regAt a ∈ writeSet i ∧ regAt a ∈ [.blk, .data, .frame] := by
      simpa only [not_or, not_not] using hkeep
    obtain ⟨hblk, hdata, hframe⟩ := regAt_eq_array_iff a
    obtain ⟨hi, hr⟩ | ⟨hi, hr⟩ | ⟨hi, hr⟩ := window_of_mem_writeSet hws harr
    · exact .inl ⟨hi, hblk.mp hr⟩
    · exact .inr (.inl ⟨hi, hframe.mp hr⟩)
    · exact .inr (.inr ⟨hi, hdata.mp hr⟩)

/-! ### Every command keeps to its write set -/

/-- Bytes written inside a window that the write set lists leave every other byte alone. -/
theorem read_writeBytes_window {i : Instr} {r : Reg} {m : Memory} {base : Nat} {bs : List Byte}
    (hr : r ∈ writeSet i) (harr : r ∈ [.blk, .data, .frame])
    (hin : ∀ a, base ≤ a ∧ a < base + bs.length → regAt a = r) (a : Nat)
    (ha : regAt a ∉ writeSet i ∨ regAt a ∉ [.blk, .data, .frame]) : (m.writeBytes base bs).read a = m.read a := by
  refine m.read_writeBytes_outside base bs a ?_
  by_contra hc
  rw [hin a (by omega)] at ha
  exact ha.elim (· hr) (· harr)

theorem blkWrite_changesOnlyWriteSet {i : Instr} (hblk : .blk ∈ writeSet i) (s : State) {bs : List Byte}
    (hlen : bs.length = 16) :
    ChangesOnlyWriteSet i s (complete .ok { s with mem := s.mem.writeBytes blkBase bs }) :=
  ChangesOnlyWriteSet.complete
    { arrays := read_writeBytes_window hblk (by simp) fun a ha => (regAt_eq_array_iff a).1.mpr (by rwa [hlen] at ha) } _

theorem ckCalc_changesOnlyWriteSet (c : Config) (s : State) : ChangesOnlyWriteSet .ckCalc s (ckCalc c s) := by
  unfold ckCalc
  split
  · exact (ChangesOnlyWriteSet.refl _ s).complete _
  · exact ChangesOnlyWriteSet.complete { result := absurd (by decide) } _

theorem ckVerify_changesOnlyWriteSet (c : Config) (s : State) : ChangesOnlyWriteSet .ckVerify s (ckVerify c s) := by
  unfold ckVerify
  split
  · exact (ChangesOnlyWriteSet.refl _ s).complete _
  · exact ChangesOnlyWriteSet.complete { result := absurd (by decide) } _

theorem packingLenCommand_changesOnlyWriteSet (s : State) : ChangesOnlyWriteSet .packingLen s (packingLenCommand s) :=
  ChangesOnlyWriteSet.complete { result := absurd (by decide) } _

/-- A sealed envelope always fits the FRAME window: MED is at most 255 (00_scope.md R9, R161). -/
theorem sealedFrame_length_le (c : Config) (s : State) (h : s.dlen.toNat ≤ c.med.val) :
    (sealEnvelope s.keyBytes (encryptEnvelope c s)).length ≤ frameSize := by
  have hmed := c.med.isLt
  have hpad := packingLen_lt s.dlen.toNat
  rw [sealEnvelope_length, encryptEnvelope_length, frameSize]
  omega

theorem envEncrypt_changesOnlyWriteSet (c : Config) (s : State) :
    ChangesOnlyWriteSet .envEncrypt s (envEncrypt c s) := by
  unfold envEncrypt
  split
  · exact ChangesOnlyWriteSet.complete { errinfo := absurd (by decide) } _
  · rename_i hfits
    have hlen := frameImage_length (sealedFrame_length_le c s (Nat.le_of_not_lt hfits))
    exact ChangesOnlyWriteSet.complete
      { arrays := read_writeBytes_window (r := .frame) (by decide) (by decide) fun a ha =>
          (regAt_eq_array_iff a).2.2.mpr (by rwa [hlen] at ha)
        flen := absurd (by decide)
        result := absurd (by decide)
        ecount := absurd (by decide)
        seq := absurd (by decide) } _

theorem envDecrypt_changesOnlyWriteSet (c : Config) (s : State) : ChangesOnlyWriteSet .envDecrypt s (envDecrypt c s) :=
  ChangesOnlyWriteSet.complete
    { arrays := read_writeBytes_window (r := .data) (by decide) (by decide) fun a ha =>
        (regAt_eq_array_iff a).2.1.mpr (by rwa [dataImage_envData_length] at ha)
      dlen := absurd (by decide)
      dcount := absurd (by decide)
      result := absurd (by decide)
      seq := absurd (by decide) } _

theorem rngSeed_changesOnlyWriteSet (c : Config) (s : State) : ChangesOnlyWriteSet .rngSeed s (rngSeed c s) :=
  ChangesOnlyWriteSet.complete { prng := absurd (by decide) } _

theorem rngEntropy_changesOnlyWriteSet (c : Config) (s : State) :
    ChangesOnlyWriteSet .rngEntropy s (rngEntropy c s) := by
  unfold rngEntropy
  split
  · exact ChangesOnlyWriteSet.complete { prng := absurd (by decide) } _
  · exact (ChangesOnlyWriteSet.refl _ s).complete _

theorem primeTest_changesOnlyWriteSet (c : Config) (s : State) : ChangesOnlyWriteSet .primeTest s (primeTest c s) := by
  unfold primeTest
  split
  · exact (ChangesOnlyWriteSet.refl _ s).complete _
  · exact ChangesOnlyWriteSet.complete
      { prng := absurd (by decide), result := absurd (by decide) } _

theorem searchTurn_changesOnlyWriteSet (c : Config) (p : Search) (s : State) :
    ChangesOnlyWriteSet .primeGen s (searchTurn c p s) := by
  obtain ⟨-, ht⟩ | ⟨-, n, st, st', -, ⟨-, ht⟩ | ⟨-, ht⟩⟩ := searchTurn_cases c p s <;> rw [ht]
  · exact ChangesOnlyWriteSet.complete
      { prng := absurd (by decide), result := absurd (by decide) } _
  · exact ChangesOnlyWriteSet.complete
      { prng := absurd (by decide)
        result := absurd (by decide)
        cand := fun h => absurd h (by decide) } _
  · exact { }

theorem primeGen_changesOnlyWriteSet (c : Config) (s : State) : ChangesOnlyWriteSet .primeGen s (primeGen c s) := by
  unfold primeGen
  split
  · exact (ChangesOnlyWriteSet.refl _ s).complete _
  · exact searchTurn_changesOnlyWriteSet c _ s

theorem commandState_changesOnlyWriteSet (i : Instr) (s : State) : ChangesOnlyWriteSet i s (commandState i s) := by
  cases i with
  | aesEncBlk => exact blkWrite_changesOnlyWriteSet (by decide) s (aes128Enc_length _ _)
  | aesDecBlk => exact blkWrite_changesOnlyWriteSet (by decide) s (aes128Dec_length _ _)
  | ckCalc => exact ckCalc_changesOnlyWriteSet config s
  | ckVerify => exact ckVerify_changesOnlyWriteSet config s
  | packingLen => exact packingLenCommand_changesOnlyWriteSet s
  | envEncrypt => exact envEncrypt_changesOnlyWriteSet config s
  | envDecrypt => exact envDecrypt_changesOnlyWriteSet config s
  | rngSeed => exact rngSeed_changesOnlyWriteSet config s
  | rngEntropy => exact rngEntropy_changesOnlyWriteSet config s
  | primeTest => exact primeTest_changesOnlyWriteSet config s
  | primeGen => exact primeGen_changesOnlyWriteSet config s

/-! ### The obligation -/

/-- Settles O14, from the frame relation that every command's Complete step keeps to. -/
theorem commandChangesOnlyItsWriteSet : Obligations.CommandChangesOnlyItsWriteSet := by
  unfold Obligations.CommandChangesOnlyItsWriteSet
  intro i s t ht
  obtain rfl : commandState i s = t := Host.Outcome.next.inj ((exec_eq i s).symm.trans ht)
  have h := commandState_changesOnlyWriteSet i s
  exact ⟨fun _ h4 _ hstatus hn => h.regValue_eq h4 hstatus hn, h.read_eq_or, h.ie, h.padMode, h.ovr,
    or_iff_not_imp_left.mpr h.prng, h.agenda, h.readData, h.busyDraws⟩

end Sys2Proof.Machine

/-!
The laws of the two lawful parameters of the prime unit, SMALL_PRIMES and RNG_RANGE (00_scope.md R9, 43_prime.md R211,
R217), and the converse: every lawful table and every lawful function is that of some `Config` (log 8).
-/
namespace Sys2Proof.Machine

/-! ### SMALL_PRIMES -/

/-- What the filter keeps is a prime below 2^64 above the bound. -/
theorem of_mem_risingPrimes {above p : Nat} {ps : List Nat} (h : p ∈ risingPrimes above ps) :
    above < p ∧ p < 2 ^ 64 ∧ p.Prime := by
  induction ps generalizing above with
  | nil => simp [risingPrimes] at h
  | cons q qs ih =>
    unfold risingPrimes at h
    split at h
    · rename_i hq
      rcases List.mem_cons.mp h with rfl | h
      · exact hq
      · obtain ⟨hlt, hp⟩ := ih h
        exact ⟨hq.1.trans hlt, hp⟩
    · exact ih h

theorem risingPrimes_pairwise (above : Nat) (ps : List Nat) : (risingPrimes above ps).Pairwise (· < ·) := by
  induction ps generalizing above with
  | nil => exact List.Pairwise.nil
  | cons q qs ih =>
    unfold risingPrimes
    split
    · exact List.pairwise_cons.mpr ⟨fun p hp => (of_mem_risingPrimes hp).1, ih q⟩
    · exact ih above

/-- The filter drops nothing from a list that is lawful already. -/
theorem risingPrimes_eq_self {above : Nat} {ps : List Nat} (hs : ps.Pairwise (· < ·))
    (h : ∀ p ∈ ps, above < p ∧ p < 2 ^ 64 ∧ p.Prime) : risingPrimes above ps = ps := by
  induction ps generalizing above with
  | nil => rfl
  | cons q qs ih =>
    obtain ⟨hq, hqs⟩ := List.pairwise_cons.mp hs
    rw [risingPrimes, if_pos (h q List.mem_cons_self),
      ih hqs fun p hp => ⟨hq p hp, (h p (List.mem_cons_of_mem q hp)).2⟩]

theorem mem_smallPrimes {c : Config} {p : Nat} :
    p ∈ smallPrimes c ↔ p ∈ [2, 3, 5, 7] ∨ p ∈ risingPrimes 7 c.smallPrimesRest := List.mem_append

theorem smallPrimes_pairwise (c : Config) : (smallPrimes c).Pairwise (· < ·) := by
  refine List.pairwise_append.mpr ⟨by decide, risingPrimes_pairwise 7 _, fun p hp q hq => ?_⟩
  have hp7 : p ≤ 7 := (by decide : ∀ p ∈ [2, 3, 5, 7], p ≤ 7) p hp
  exact hp7.trans_lt (of_mem_risingPrimes hq).1

theorem prime_of_mem_smallPrimes {c : Config} {p : Nat} (h : p ∈ smallPrimes c) : p.Prime ∧ p < 2 ^ 64 := by
  rcases mem_smallPrimes.mp h with h | h
  · exact (by decide : ∀ p ∈ [2, 3, 5, 7], p.Prime ∧ p < 2 ^ 64) p h
  · exact (of_mem_risingPrimes h).2.symm

/-- The primes up to 7 are those every table starts with (43_prime.md R217). -/
theorem mem_first_primes {p : Nat} (hp : p.Prime) (h : p ≤ 7) : p ∈ [2, 3, 5, 7] := by
  revert hp
  interval_cases p <;> decide

/-- A lawful table is the four first primes and then its entries above 7. -/
theorem lawful_table_eq {l : List Nat} (hs : l.Pairwise (· < ·)) (hp : ∀ p ∈ l, p.Prime)
    (hfirst : ∀ p ∈ [2, 3, 5, 7], p ∈ l) : [2, 3, 5, 7] ++ l.filter (7 < ·) = l := by
  have hrest : ([2, 3, 5, 7] ++ l.filter (7 < ·)).Pairwise (· < ·) := by
    refine List.pairwise_append.mpr ⟨by decide, hs.filter _, fun p hp q hq => ?_⟩
    have hp7 : p ≤ 7 := (by decide : ∀ p ∈ [2, 3, 5, 7], p ≤ 7) p hp
    exact hp7.trans_lt (of_decide_eq_true (List.mem_filter.mp hq).2)
  refine List.Pairwise.eq_of_mem_iff hrest hs fun p => ⟨fun h => ?_, fun h => ?_⟩
  · rcases List.mem_append.mp h with h | h
    · exact hfirst p h
    · exact (List.mem_filter.mp h).1
  · by_cases h7 : p ≤ 7
    · exact List.mem_append_left _ (mem_first_primes (hp p h) h7)
    · exact List.mem_append_right _ (List.mem_filter.mpr ⟨h, by simpa using h7⟩)

/-- Every lawful table is the one of some parameters. -/
theorem exists_config_of_table {l : List Nat} (hs : l.Pairwise (· < ·)) (hp : ∀ p ∈ l, p.Prime ∧ p < 2 ^ 64)
    (hfirst : ∀ p ∈ [2, 3, 5, 7], p ∈ l) : ∃ c : Config, smallPrimes c = l := by
  refine ⟨{ (default : Config) with smallPrimesRest := l.filter (7 < ·) }, ?_⟩
  have hkeep : risingPrimes 7 (l.filter (7 < ·)) = l.filter (7 < ·) :=
    risingPrimes_eq_self (hs.filter _) fun p h => by
      obtain ⟨hl, h7⟩ := List.mem_filter.mp h
      exact ⟨of_decide_eq_true h7, (hp p hl).symm⟩
  rw [smallPrimes, hkeep, lawful_table_eq hs (fun p h => (hp p h).1) hfirst]

/-! ### RNG_RANGE -/

theorem rngRange_mem_range (c : Config) (st : RngState) {lo hi : Cand} (h : lo ≤ hi) :
    lo ≤ (rngRange c st lo hi).1 ∧ (rngRange c st lo hi).1 ≤ hi := by
  simp only [rngRange]
  split
  · assumption
  · exact ⟨BitVec.le_refl lo, h⟩

/-- Imposing the law changes no value that keeps it. -/
theorem rngRange_eq_raw {c : Config} {st : RngState} {lo hi : Cand}
    (h : lo ≤ (c.rngRangeRaw st lo hi).1 ∧ (c.rngRangeRaw st lo hi).1 ≤ hi) :
    rngRange c st lo hi = c.rngRangeRaw st lo hi := by
  simp [rngRange, h]

/-! ### The obligation -/

/-- Settles O47: the laws hold by induction on the open list and by the guard of `rngRange`; conversely the entries
above 7 are the open list of a given table, and a given function is its own open one. -/
theorem parametersKeepTheirLaws : Obligations.ParametersKeepTheirLaws := by
  unfold Obligations.ParametersKeepTheirLaws
  refine ⟨fun c => ⟨smallPrimes_pairwise c, fun _ => prime_of_mem_smallPrimes, ?_⟩,
    fun c st _ _ => rngRange_mem_range c st, fun l hs hp h2 h3 h5 h7 => ?_, fun f hf => ?_⟩
  · simp [mem_smallPrimes]
  · exact exists_config_of_table hs hp (by simp [h2, h3, h5, h7])
  · exact ⟨{ (default : Config) with rngRangeRaw := f }, fun st lo hi h => rngRange_eq_raw (hf st lo hi h)⟩

end Sys2Proof.Machine

/-!
The rules of the whole machine for the state of 10_state.md: how a command completes, what the engine's turn and a host
access do to the pending word, the secrets and the stream, the interrupt output, and the reset state.
-/
namespace Sys2Proof.Machine

/-! ### How a command completes (10_state.md R44) -/

theorem completedWith_complete (code : ErrorCode) (s : State) : CompletedWith code (complete code s) :=
  ⟨rfl, rfl, rfl, rfl⟩

theorem completedWith_ite (p : Prop) [Decidable p] (code code' : ErrorCode) (s s' : State) :
    ∃ c, CompletedWith c (if p then complete code s else complete code' s') := by
  split <;> exact ⟨_, completedWith_complete _ _⟩

/-- Every command but PRIME_GEN ends in the turn it gets. -/
theorem commandState_completes {i : Instr} (hi : i ≠ .primeGen) (s : State) :
    ∃ code, CompletedWith code (commandState i s) := by
  cases i with
  | primeGen => exact absurd rfl hi
  | aesEncBlk | aesDecBlk | packingLen | envDecrypt | rngSeed => exact ⟨_, completedWith_complete _ _⟩
  | ckCalc | ckVerify | envEncrypt | rngEntropy => exact completedWith_ite _ _ _ _ _
  | primeTest =>
    rw [commandState, primeTest]
    split <;> exact ⟨_, completedWith_complete _ _⟩

/-- A turn of PRIME_GEN ends it, with the stream kept or the unit seeded, or goes on with the loop (43_prime.md R225;
log 5). -/
theorem primeGen_cases (c : Config) (s : State) :
    (∃ code, CompletedWith code (primeGen c s) ∧
        ((primeGen c s).prng = s.prng ∨ (primeGen c s).prng.isSome = true)) ∨
      ∃ p, primeGen c s = { s with search := some p } := by
  unfold primeGen
  split
  · exact .inl ⟨_, completedWith_complete _ _, .inl rfl⟩
  · rename_i st _
    obtain ⟨-, ht⟩ | ⟨-, n, st, st', -, ⟨-, ht⟩ | ⟨-, ht⟩⟩ := searchTurn_cases c (searchPoint s st) s <;> rw [ht]
    · exact .inl ⟨_, completedWith_complete _ _, .inr rfl⟩
    · exact .inl ⟨_, completedWith_complete _ _, .inr rfl⟩
    · exact .inr ⟨_, rfl⟩

/-- A command's turn completes it or leaves it pending. -/
theorem commandState_pending (i : Instr) (s : State) :
    (commandState i s).pending = s.pending ∨ ∃ code, CompletedWith code (commandState i s) := by
  by_cases hi : i = .primeGen
  · subst hi
    obtain ⟨code, hc, -⟩ | ⟨p, hp⟩ := primeGen_cases config s
    · exact .inr ⟨code, hc⟩
    · exact .inl (by rw [commandState, hp])
  · exact .inr (commandState_completes hi s)

theorem rngEntropy_prng (c : Config) (s : State) :
    (rngEntropy c s).prng = s.prng ∨ (rngEntropy c s).prng.isSome = true := by
  unfold rngEntropy
  split
  · exact .inr rfl
  · exact .inl rfl

theorem primeTest_prng (c : Config) (s : State) :
    (primeTest c s).prng = s.prng ∨ (primeTest c s).prng.isSome = true := by
  unfold primeTest
  split
  · exact .inl rfl
  · exact .inr rfl

theorem primeGen_prng (c : Config) (s : State) :
    (primeGen c s).prng = s.prng ∨ (primeGen c s).prng.isSome = true := by
  obtain ⟨-, -, h⟩ | ⟨p, hp⟩ := primeGen_cases c s
  · exact h
  · exact .inl (by rw [hp])

/-- A command of the prime unit leaves the stream or leaves the unit seeded; no other command writes the stream
(10_state.md R41). -/
theorem commandState_prng (i : Instr) (s : State) :
    (commandState i s).prng = s.prng ∨
      (i ∈ [.rngSeed, .rngEntropy, .primeTest, .primeGen] ∧ (commandState i s).prng.isSome = true) := by
  cases i with
  | rngSeed => exact .inr ⟨by decide, rfl⟩
  | rngEntropy => exact (rngEntropy_prng config s).imp_right fun h => ⟨by decide, h⟩
  | primeTest => exact (primeTest_prng config s).imp_right fun h => ⟨by decide, h⟩
  | primeGen => exact (primeGen_prng config s).imp_right fun h => ⟨by decide, h⟩
  | _ => exact .inl ((commandState_changesOnlyWriteSet _ s).prng (by decide))

/-! ### Command words (30_encoding.md R83) -/

theorem decodeOp_eq_ok {op : Byte} {i : Instr} (h : decodeOp op = .ok i) : op = i.op := by
  unfold decodeOp at h
  split at h
  case h_12 => cases h
  all_goals
    cases h
    exact BitVec.eq_of_toNat_eq ‹_›

/-- A word whose RSV is 0 is its OP, zero-extended (30_encoding.md R80). -/
theorem eq_setWidth_wordOp {w : Word} (h : wordRsv w = 0) : w = (wordOp w).setWidth 32 := by
  have hrsv : (wordRsv w).toNat = 0 := congrArg BitVec.toNat h
  apply BitVec.eq_of_toNat_eq
  simp only [wordRsv, wordOp, BitVec.extractLsb'_toNat, BitVec.toNat_setWidth, Nat.shiftRight_eq_div_pow] at hrsv ⊢
  omega

/-- The one word that decodes to a command is the command's own. -/
theorem eq_encode_of_decode {w : Word} {i : Instr} (h : decode w = .ok i) : w = encode i := by
  unfold decode at h
  split at h
  · cases h
  · rename_i hrsv
    rw [encode, ← decodeOp_eq_ok h]
    exact eq_setWidth_wordOp (not_not.mp hrsv)

/-! ### What the engine's turn leaves -/

/-- The next state of the engine's turn: the same when IDLE, else a completed or continued command. -/
theorem engineTurn_next_cases {s t : State} (h : engineTurn s = .next t) :
    (s.pending = none ∧ t = s) ∨
      (∃ w i, s.pending = some w ∧ decode w = .ok i ∧ t = commandState i s) ∨
      (s.pending.isSome = true ∧ t = complete .illegalCmd s) := by
  obtain ⟨hp, he⟩ | ⟨w, i, hp, hd, he⟩ | ⟨w, r, hp, -, he⟩ := engineTurn_cases s <;>
    obtain rfl := Host.Outcome.next.inj (h.symm.trans he)
  · exact .inl ⟨hp, rfl⟩
  · exact .inr (.inl ⟨w, i, hp, hd, rfl⟩)
  · exact .inr (.inr ⟨by rw [hp]; rfl, rfl⟩)

theorem engineTurn_pending {s t : State} (h : engineTurn s = .next t) :
    t.pending = s.pending ∨ (s.pending.isSome = true ∧ t.pending = none ∧ t.done = true) := by
  obtain ⟨-, rfl⟩ | ⟨w, i, hp, -, rfl⟩ | ⟨hp, rfl⟩ := engineTurn_next_cases h
  · exact .inl rfl
  · obtain hkeep | ⟨code, -, hdone, hnone, -⟩ := commandState_pending i s
    · exact .inl hkeep
    · exact .inr ⟨by rw [hp]; rfl, hnone, hdone⟩
  · exact .inr ⟨hp, rfl, rfl⟩

theorem engineTurn_ie {s t : State} (h : engineTurn s = .next t) : t.ie = s.ie := by
  obtain ⟨-, rfl⟩ | ⟨w, i, -, -, rfl⟩ | ⟨-, rfl⟩ := engineTurn_next_cases h
  · rfl
  · exact (commandState_changesOnlyWriteSet i s).ie
  · rfl

/-- No command writes a byte of KEY or SEED (10_state.md R34, R36). -/
theorem engineTurn_read_secret {s t : State} (h : engineTurn s = .next t) {a : Nat}
    (ha : 0x040 ≤ a ∧ a < 0x050 ∨ 0x060 ≤ a ∧ a < 0x080) : t.mem.read a = s.mem.read a := by
  obtain ⟨-, rfl⟩ | ⟨w, i, -, -, rfl⟩ | ⟨-, rfl⟩ := engineTurn_next_cases h
  · rfl
  · obtain hkeep | ⟨-, hin⟩ | ⟨-, hin⟩ | ⟨-, hin⟩ := (commandState_changesOnlyWriteSet i s).read_eq_or a
    · exact hkeep
    all_goals omega
  · rfl

theorem engineTurn_prng {s t : State} (h : engineTurn s = .next t) :
    t.prng = s.prng ∨ ∃ i ∈ [Instr.rngSeed, .rngEntropy, .primeTest, .primeGen],
      s.pending = some (encode i) ∧ t.prng.isSome = true := by
  obtain ⟨-, rfl⟩ | ⟨w, i, hp, hd, rfl⟩ | ⟨-, rfl⟩ := engineTurn_next_cases h
  · exact .inl rfl
  · exact (commandState_prng i s).imp_right fun ⟨hi, hsome⟩ =>
      ⟨i, hi, hp.trans (congrArg some (eq_encode_of_decode hd)), hsome⟩
  · exact .inl rfl

/-! ### What a host access leaves (20_memory.md R63, R64, R67) -/

@[simp] theorem busRead_pending (c : Config) (off : Nat) (s : State) : (busRead c off s).pending = s.pending := by
  rw [busRead_frame]

@[simp] theorem busRead_mem (c : Config) (off : Nat) (s : State) : (busRead c off s).mem = s.mem := by
  rw [busRead_frame]

@[simp] theorem busRead_prng (c : Config) (off : Nat) (s : State) : (busRead c off s).prng = s.prng := by
  rw [busRead_frame]

/-- The answer of a read: a draw in the hazard, else the register's value (20_memory.md R63, R66). -/
theorem busRead_readData (c : Config) (off : Nat) (s : State) :
    (busRead c off s).readData = some (if inHazard s off then c.busyRead s.busyDraws else regValue s off) := by
  unfold busRead
  split <;> rfl

/-- A write while BUSY changes two flags of STATUS at most (20_memory.md R67). -/
theorem busyWrite_frame (off : Nat) (v : Word) (s : State) :
    busyWrite off v s = { s with done := (busyWrite off v s).done, ovr := (busyWrite off v s).ovr } := by
  unfold busyWrite
  cases regAt off <;> rfl

theorem idleWrite_pending (c : Config) (off : Nat) (v : Word) (s : State) :
    (idleWrite c off v s).pending = if regAt off = .cmd then some v else s.pending := by
  unfold idleWrite
  cases regAt off <;> rfl

@[simp] theorem idleWrite_prng (c : Config) (off : Nat) (v : Word) (s : State) :
    (idleWrite c off v s).prng = s.prng := by
  unfold idleWrite
  cases regAt off <;> rfl

theorem idleWrite_mem (c : Config) (off : Nat) (v : Word) (s : State) :
    (idleWrite c off v s).mem = s.mem ∨ (idleWrite c off v s).mem = s.mem.writeWord off v := by
  unfold idleWrite
  cases regAt off
  case key | blk | seed | data | frame => exact .inr rfl
  all_goals exact .inl rfl

theorem le32_getD (v : Word) {k : Nat} (hk : k < 4) : (le32 v).getD k 0 = v.extractLsb' (8 * k) 8 := by
  interval_cases k <;> rfl

/-- A read after a word write: byte k of the word at its offset plus k, the old bytes elsewhere (20_memory.md R62). -/
theorem Memory.read_writeWord (m : Memory) (off : Nat) (v : Word) (a : Nat) :
    (m.writeWord off v).read a =
      if off ≤ a ∧ a < off + 4 then v.extractLsb' (8 * (a - off)) 8 else m.read a := by
  rw [Memory.writeWord, Memory.read_writeBytes, le32_length]
  split
  · exact le32_getD v (by omega)
  · rfl

/-- Words are equal when each of their bytes is. -/
theorem Memory.readWord_congr {m m' : Memory} {off : Nat} (h : ∀ k < 4, m.read (off + k) = m'.read (off + k)) :
    m.readWord off = m'.readWord off := by
  have h0 : m.read off = m'.read off := h 0 (by decide)
  rw [Memory.readWord, h0, h 1 (by decide), h 2 (by decide), h 3 (by decide), Memory.readWord]

theorem offset_of_regAt_eq_cmd {off : Nat} (h4 : off % 4 = 0) (h : regAt off = .cmd) : off = 0x000 := by
  unfold regAt at h
  split_ifs at h
  split at h <;> simp only [reduceCtorEq] at h
  omega

/-- A host write while IDLE (20_memory.md R64). -/
theorem hostWrites_idle {s : State} (hs : s.pending = none) {off : Nat} (v : Word) (h4 : off % 4 = 0)
    (h : off < 0x1000) : hostWrites off v s = .next (idleWrite config off v s) := by
  rw [hostWrites_eq v s h4 h, busWrite, State.busy, hs]
  rfl

/-- A host write of CMD while IDLE is accepted (10_state.md R45). -/
theorem hostWrites_cmd {s : State} (hs : s.pending = none) (w : Word) :
    hostWrites 0x000 w s = .next (accept w s) := hostWrites_idle hs w rfl (by decide)

theorem hostWrites_ctrl {s : State} (hs : s.pending = none) (v : Word) :
    hostWrites 0x008 v s = .next (writeCtrl config v s) := hostWrites_idle hs v rfl (by decide)

/-- A host write of STATUS has its effect BUSY or not (20_memory.md R64, R67). -/
theorem hostWrites_status (v : Word) (s : State) : hostWrites 0x004 v s = .next (writeStatus v s) := by
  rw [hostWrites_eq v s rfl (by decide), busWrite]
  split <;> rfl

/-! ### What a step can do to the pending word, the byte arrays and the stream -/

/-- Only an engine's turn, an idle write and a reset touch them. -/
theorem step_changes_cases {s t : State} (h : step s = .next t) :
    (EngineIsNext s ∧ engineTurn (withAgenda s.agenda.tail s) = .next t) ∨
      (∃ off v, s.pending = none ∧ s.agenda.head? = some (.write .word off v) ∧ off % 4 = 0 ∧
        t = idleWrite config off v (withAgenda s.agenda.tail s)) ∨
      (s.agenda.head? = some .reset ∧ t = resetEvent (withAgenda s.agenda.tail s)) ∨
      (t.pending = s.pending ∧ t.mem = s.mem ∧ t.prng = s.prng) := by
  obtain hengine | ⟨off, -, -, -, rfl⟩ | ⟨off, v, hhead, h4, -, rfl⟩ | hreset | ⟨-, rfl⟩ := step_cases h
  · exact .inl hengine
  · exact .inr (.inr (.inr (by simp)))
  · obtain ⟨hs, ht⟩ | ⟨-, ht⟩ := busWrite_eq config off v (withAgenda s.agenda.tail s)
    · exact .inr (.inl ⟨off, v, hs, hhead, h4, ht⟩)
    · rw [ht, busyWrite_frame]
      exact .inr (.inr (.inr ⟨rfl, rfl, rfl⟩))
  · exact .inr (.inr (.inl hreset))
  · exact .inr (.inr (.inr ⟨rfl, rfl, rfl⟩))

/-! ### The pending word -/

/-- Settles O12: a command other than PRIME_GEN, and an illegal word, complete in their turn. -/
theorem pendingCommandCompletes : Obligations.PendingCommandCompletes := by
  unfold Obligations.PendingCommandCompletes
  intro s w hagenda hpending hgen
  rw [step_nil hagenda]
  cases hd : decode w with
  | ok i =>
    have hi : i ≠ .primeGen := by rintro rfl; exact hgen hd
    obtain ⟨code, -, hdone, hnone, -⟩ := commandState_completes hi s
    exact ⟨_, engineTurn_command hpending hd, hnone, hdone⟩
  | error r => exact ⟨_, engineTurn_illegal hpending hd, rfl, rfl⟩

/-- Settles O13, from what each kind of step does to the pending word. -/
theorem pendingChangesOnlyAsStated : Obligations.PendingChangesOnlyAsStated := by
  unfold Obligations.PendingChangesOnlyAsStated
  intro s t h
  obtain ⟨hnext, hturn⟩ | ⟨off, v, hidle, hhead, h4, rfl⟩ | ⟨hhead, rfl⟩ | ⟨hkeep, -, -⟩ := step_changes_cases h
  · exact (engineTurn_pending hturn).imp_right fun hdone => .inr (.inl ⟨hnext, hdone⟩)
  · rw [idleWrite_pending]
    split
    · obtain rfl := offset_of_regAt_eq_cmd h4 ‹_›
      exact .inr (.inl ⟨v, hidle, hhead, rfl⟩)
    · exact .inl rfl
  · exact .inr (.inr (.inr ⟨hhead, rfl⟩))
  · exact .inl hkeep

/-! ### CTRL and the interrupt output -/

/-- Settles O23: the write is `writeCtrl`, and `warlPadMode` computes at each value of the field. -/
theorem padModeIsWarl : Obligations.PadModeIsWarl := by
  unfold Obligations.PadModeIsWarl
  intro s v hs
  refine ⟨_, hostWrites_ctrl hs v, ?_, ?_, ?_, ?_⟩ <;> intro hfield <;> rw [hfield] <;> rfl

/-- Settles O29: a completion sets DONE and keeps IE; each of the three writes clears DONE or IE. -/
theorem interruptFollowsCompletion : Obligations.InterruptFollowsCompletion := by
  unfold Obligations.InterruptFollowsCompletion
  refine ⟨fun _ => rfl, fun s t hbusy h hidle => ?_, fun s t v hv h => ?_, fun s t w hs h => ?_,
    fun s t v hs hv h => ?_⟩
  · rw [engineActs_eq] at h
    obtain hkeep | ⟨-, -, hdone⟩ := engineTurn_pending h
    · simp [← hkeep, hidle] at hbusy
    · simp [State.irq, hdone, engineTurn_ie h]
  · obtain rfl := Host.Outcome.next.inj ((hostWrites_status v s).symm.trans h)
    simp [State.irq, hv]
  · obtain rfl := Host.Outcome.next.inj ((hostWrites_cmd hs w).symm.trans h)
    exact accept_irq w s
  · obtain rfl := Host.Outcome.next.inj ((hostWrites_ctrl hs v).symm.trans h)
    rw [State.irq, writeCtrl_ie, hv, Bool.and_false]

/-! ### KEY and SEED -/

/-- A byte of BLK, DATA or FRAME is the same in two states that differ in KEY and SEED only. -/
theorem SameButSecrets.read_eq {s t : State} (h : SameButSecrets s t) {a : Nat}
    (ha : regAt a = .blk ∨ regAt a = .data ∨ regAt a = .frame) : t.mem.read a = s.mem.read a := by
  obtain ⟨hblk, hdata, hframe⟩ := regAt_eq_array_iff a
  rw [hblk, hdata, hframe] at ha
  refine h.2 a ?_ ?_ <;> simp only [keyBase, seedBase] <;> omega

theorem SameButSecrets.readWord_eq {s t : State} (h : SameButSecrets s t) {off : Nat} (h4 : off % 4 = 0)
    (hoff : regAt off = .blk ∨ regAt off = .data ∨ regAt off = .frame) :
    t.mem.readWord off = s.mem.readWord off :=
  Memory.readWord_congr fun k hk => h.read_eq (by rwa [regAt_add h4 hk])

/-- KEY and SEED read 0, and no other register holds their bytes (10_state.md R34, R36). -/
theorem SameButSecrets.regValue_eq {s t : State} (h : SameButSecrets s t) {off : Nat} (h4 : off % 4 = 0) :
    regValue t off = regValue s off := by
  have hword := h.readWord_eq h4
  obtain ⟨ht, -⟩ := h
  generalize t.mem = m at ht hword
  subst ht
  unfold regValue
  cases hr : regAt off
  case blk | data | frame => exact hword (by simp [hr])
  all_goals rfl

/-- Settles O27: outside the hazard the register's value is the same in both states, and in it neither is read. -/
theorem secretsCannotBeReadBack : Obligations.SecretsCannotBeReadBack := by
  unfold Obligations.SecretsCannotBeReadBack
  intro s t h off h4 hoff
  have hpending : t.pending = s.pending := by rw [h.1]
  have hhazard : inHazard t off = inHazard s off := by unfold inHazard; rw [hpending]
  refine ⟨_, _, hostReads_eq s h4 hoff, hostReads_eq t h4 hoff, ?_, ?_⟩ <;> intro hs <;>
    simp [busRead_readData, hhazard, hs, h.regValue_eq h4]

/-- Settles O28: the engine writes no byte of KEY or SEED, and an idle write one only as part of its word. -/
theorem secretsChangeOnlyByHostOrReset : Obligations.SecretsChangeOnlyByHostOrReset := by
  unfold Obligations.SecretsChangeOnlyByHostOrReset
  intro s t h a ha
  obtain ⟨-, hturn⟩ | ⟨off, v, hidle, hhead, h4, rfl⟩ | ⟨hhead, rfl⟩ | ⟨-, hmem, -⟩ := step_changes_cases h
  · exact .inl (engineTurn_read_secret hturn ha)
  · obtain hkeep | hword := idleWrite_mem config off v (withAgenda s.agenda.tail s)
    · exact .inl (congrArg (Memory.read · a) hkeep)
    · rw [hword, Memory.read_writeWord]
      split
      · have hoff : a - a % 4 = off := by omega
        have hbyte : a - off = a % 4 := by omega
        exact .inr (.inl ⟨v, hidle, by rw [hoff, hhead], by rw [hbyte]⟩)
      · exact .inl rfl
  · exact .inr (.inr ⟨hhead, rfl⟩)
  · exact .inl (by rw [hmem])

/-! ### The stream -/

/-- Settles O60, from what each kind of step does to the stream. -/
theorem streamChangesOnlyByPrimeUnit : Obligations.StreamChangesOnlyByPrimeUnit := by
  unfold Obligations.StreamChangesOnlyByPrimeUnit
  intro s t h
  obtain ⟨hnext, hturn⟩ | ⟨off, v, -, -, -, rfl⟩ | ⟨hhead, rfl⟩ | ⟨-, -, hkeep⟩ := step_changes_cases h
  · exact (engineTurn_prng hturn).imp_right fun hprime => .inl ⟨hnext, hprime⟩
  · exact .inl (idleWrite_prng _ _ _ _)
  · exact .inr (.inr ⟨hhead, rfl⟩)
  · exact .inl hkeep

/-! ### The reset state (10_state.md R47) -/

@[simp] theorem Memory.bytes_nil (base n : Nat) : Memory.bytes [] base n = zeros n := by
  simp [Memory.bytes, zeros, List.map_const']

theorem reset_padMode : State.reset.padMode = if config.hasEntropy then .entropy else .deterministic := rfl

/-- Settles O4: PAD_MODE by cases on the entropy source, the byte arrays as an empty memory, the rest by definition. -/
theorem resetValues : Obligations.ResetValues := by
  unfold Obligations.ResetValues
  have hpad : State.reset.padMode.bits = if config.hasEntropy then 1 else 2 := by
    rw [reset_padMode]
    split <;> rfl
  exact ⟨rfl, rfl, rfl, rfl, rfl, rfl, hpad, rfl, rfl, rfl, rfl, rfl, rfl, rfl, rfl, Memory.bytes_nil _ _,
    Memory.bytes_nil _ _, Memory.bytes_nil _ _, Memory.bytes_nil _ _, Memory.bytes_nil _ _, rfl, rfl, rfl, rfl⟩

/-- Settles O6: there are no cells, nothing is pending and no loop is in progress. -/
theorem resetStateIsInvariant : Obligations.ResetStateIsInvariant where
  canonical := Memory.wf_nil
  arraysOnly := fun _ h => absurd h List.not_mem_nil
  busyFlags := fun h => absurd h (by decide)
  errDefined := Nat.zero_le _
  padLegal := fun h => by simp [reset_padMode, h]
  searchOwned := fun _ h => nomatch h

/-! ### The engine's turn and acceptance (10_state.md R44, R45) -/

theorem engineTurn_exec {s : State} {w : Word} {i : Instr} (h : s.pending = some w) (hd : decode w = .ok i) :
    engineTurn s = exec i s := by rw [engineTurn_command h hd, exec_eq]

/-- Settles O8: the engine's turn is `exec` of the decoded word. -/
theorem stepRunsDecodedCommand : Obligations.StepRunsDecodedCommand := by
  unfold Obligations.StepRunsDecodedCommand
  intro s w i hp hd
  have hexec := engineTurn_exec hp hd
  exact ⟨by rw [engineActs_eq, hexec], fun hagenda => by rw [step_nil hagenda, hexec]⟩

/-- A word placed whole is accepted with the engine's turn first. -/
theorem step_withFetchWord (s : State) (w : Word) :
    step (s.withFetchWord 32 w.toNat) = engineTurn (accept w s) := by
  have hword : BitVec.ofNat 32 (w.toNat % 2 ^ 32) = w := by
    rw [Nat.mod_eq_of_lt w.isLt, BitVec.ofNat_toNat, BitVec.setWidth_eq]
  rw [State.withFetchWord, hword]
  exact engineActs_eq (accept w s)

/-- Settles O10: the word just accepted is the one the engine decodes. -/
theorem placedWordRunsNext : Obligations.PlacedWordRunsNext := by
  unfold Obligations.PlacedWordRunsNext
  intro s w i hd
  rw [step_withFetchWord, engineTurn_exec (accept_pending w s) hd]

/-- Settles O11: with nothing pending the engine's turn has no Complete step to make. -/
theorem idleEngineWaits : Obligations.IdleEngineWaits := by
  unfold Obligations.IdleEngineWaits
  intro s hs
  have hturn := engineTurn_idle hs
  exact ⟨by rw [engineActs_eq, hturn], fun hagenda => by rw [step_nil hagenda, hturn]⟩

/-- Settles O17: the idle write of CMD is `accept`. -/
theorem idleWriteOfCmdAccepts : Obligations.IdleWriteOfCmdAccepts := by
  unfold Obligations.IdleWriteOfCmdAccepts
  intro s w hs
  exact hostWrites_cmd hs w

end Sys2Proof.Machine

/-!
The invariant `Inv` (10_state.md R22, R25; 20_memory.md R66; 60_exceptions.md R250) is kept by every step: where a
command and an idle write can put bytes, how a turn of PRIME_GEN ends or goes on, and one rule for each kind of event.
-/
namespace Sys2Proof.Machine

/-! ### How a turn of PRIME_GEN ends or goes on (43_prime.md R224, R225; log 5) -/

/-- A turn that does not end the loop leaves all but the loop field, one attempt further and below the cap. -/
theorem primeGen_turn (c : Config) (s : State) :
    ((∃ code, CompletedWith code (primeGen c s)) ∧ (primeGen c s).mem = s.mem) ∨
      ∃ st p, s.prng = some st ∧ capReached c (searchPoint s st).attempts = false ∧
        p.attempts = (searchPoint s st).attempts + 1 ∧ primeGen c s = { s with search := some p } := by
  unfold primeGen
  split
  · exact .inl ⟨⟨_, completedWith_complete _ _⟩, rfl⟩
  · rename_i st hst
    obtain ⟨-, ht⟩ | ⟨hcap, _, _, _, -, ⟨-, ht⟩ | ⟨-, ht⟩⟩ := searchTurn_cases c (searchPoint s st) s <;> rw [ht]
    · exact .inl ⟨⟨_, completedWith_complete _ _⟩, rfl⟩
    · exact .inl ⟨⟨_, completedWith_complete _ _⟩, rfl⟩
    · exact .inr ⟨st, _, hst, hcap, rfl, rfl⟩

/-- Where the loop stands is within the cap. -/
theorem searchPoint_attempts_le {s : State} (h : searchOk s) (st : RngState) (hcap : 0 < config.primeMaxAttempts) :
    (searchPoint s st).attempts ≤ config.primeMaxAttempts := by
  unfold searchPoint
  cases hs : s.search with
  | none => exact Nat.zero_le _
  | some p =>
    obtain ⟨-, -, hle⟩ := h p hs
    exact hle hcap

theorem ne_of_capReached_eq_false {c : Config} {n : Nat} (h : capReached c n = false) (hcap : 0 < c.primeMaxAttempts) :
    n ≠ c.primeMaxAttempts := by
  rintro rfl
  simp [capReached, hcap] at h

/-! ### Where bytes are written (10_state.md R22) -/

/-- The offsets that hold bytes are those of the register map's byte arrays. -/
theorem inByteArray_iff (a : Nat) : inByteArray a = true ↔ regAt a ∈ [.key, .blk, .seed, .data, .frame] := by
  rw [inByteArray, decide_eq_true_iff, regAt]
  split_ifs
  · split <;> simp only [List.mem_cons, reduceCtorEq, List.not_mem_nil, or_false, iff_false] <;> omega
  all_goals simp; omega

/-- A memory that differs from another by one write inside the byte arrays at most. -/
def WritesOnlyArrays (m m' : Memory) : Prop :=
  m' = m ∨ ∃ base bs, m' = m.writeBytes base bs ∧ ∀ a, base ≤ a ∧ a < base + bs.length → inByteArray a = true

/-- Such a write keeps the memory canonical and puts no cell outside the byte arrays. -/
theorem WritesOnlyArrays.keeps {m m' : Memory} (hw : WritesOnlyArrays m m') (hwf : m.wf) (harr : cellsInArrays m) :
    m'.wf ∧ cellsInArrays m' := by
  obtain rfl | ⟨base, bs, rfl, hin⟩ := hw
  · exact ⟨hwf, harr⟩
  · refine ⟨Memory.wf_writeBytes hwf base bs, fun c hc => ?_⟩
    obtain hold | hnew := Memory.mem_writeBytes hc
    · exact harr c hold
    · exact hin _ hnew

/-- A write that fits between two offsets of a byte array. -/
theorem writesOnlyArrays_writeBytes (m : Memory) {base n : Nat} {bs : List Byte} (hlen : bs.length = n)
    (hin : (0x040 ≤ base ∧ base + n ≤ 0x080) ∨ (0x100 ≤ base ∧ base + n ≤ 0x400)) :
    WritesOnlyArrays m (m.writeBytes base bs) :=
  .inr ⟨base, bs, rfl, fun a ha => decide_eq_true (by omega)⟩

theorem envEncrypt_writesOnlyArrays (c : Config) (s : State) : WritesOnlyArrays s.mem (envEncrypt c s).mem := by
  unfold envEncrypt
  split
  · exact .inl rfl
  · rename_i hfits
    exact writesOnlyArrays_writeBytes s.mem
      (frameImage_length (sealedFrame_length_le c s (Nat.le_of_not_lt hfits))) (by decide)

theorem commandState_writesOnlyArrays (i : Instr) (s : State) : WritesOnlyArrays s.mem (commandState i s).mem := by
  cases i with
  | aesEncBlk => exact writesOnlyArrays_writeBytes s.mem (aes128Enc_length _ _) (by decide)
  | aesDecBlk => exact writesOnlyArrays_writeBytes s.mem (aes128Dec_length _ _) (by decide)
  | envEncrypt => exact envEncrypt_writesOnlyArrays config s
  | envDecrypt => exact writesOnlyArrays_writeBytes s.mem (dataImage_envData_length _) (by decide)
  | packingLen | rngSeed => exact .inl rfl
  | ckCalc => rw [commandState, ckCalc]; split <;> exact .inl rfl
  | ckVerify => rw [commandState, ckVerify]; split <;> exact .inl rfl
  | rngEntropy => rw [commandState, rngEntropy]; split <;> exact .inl rfl
  | primeTest => rw [commandState, primeTest]; split <;> exact .inl rfl
  | primeGen =>
    obtain ⟨-, hmem⟩ | ⟨st, p, -, -, -, ht⟩ := primeGen_turn config s
    · exact .inl hmem
    · exact .inl (by rw [commandState, ht])

/-! ### The invariant after each kind of event -/

/-- A completed command owes nothing to the flags before it (10_state.md R44). -/
theorem Inv.of_completedWith {s t : State} (h : Inv s) {code : ErrorCode} (hc : CompletedWith code t)
    (hmem : WritesOnlyArrays s.mem t.mem) (hpad : t.padMode = s.padMode) : Inv t := by
  obtain ⟨herr, -, hpending, hsearch⟩ := hc
  obtain ⟨hwf, harr⟩ := hmem.keeps h.canonical h.arraysOnly
  exact
    { canonical := hwf
      arraysOnly := harr
      busyFlags := by simp [hpending]
      errDefined := by rw [herr]; exact errorCode_bits_le code
      padLegal := by rw [hpad]; exact h.padLegal
      searchOwned := by simp [searchOk, hsearch] }

theorem Inv.primeGen {s : State} (h : Inv s) {w : Word} (hp : s.pending = some w) (hd : decode w = .ok .primeGen) :
    Inv (primeGen config s) := by
  obtain ⟨⟨code, hc⟩, hmem⟩ | ⟨st, p, hst, hcap, hattempts, ht⟩ := primeGen_turn config s
  · exact h.of_completedWith hc (.inl hmem) (primeGen_changesOnlyWriteSet config s).padMode
  · rw [ht]
    refine { h with searchOwned := fun q hq => ?_ }
    obtain rfl : p = q := Option.some.inj hq
    refine ⟨by simp [hp, hd], by simp [hst], fun hpos => ?_⟩
    have hle := searchPoint_attempts_le h.searchOwned st hpos
    have hne := ne_of_capReached_eq_false hcap hpos
    omega

theorem Inv.commandState {s : State} (h : Inv s) {w : Word} {i : Instr} (hp : s.pending = some w)
    (hd : decode w = .ok i) : Inv (commandState i s) := by
  by_cases hi : i = .primeGen
  · subst hi
    exact h.primeGen hp hd
  · obtain ⟨code, hc⟩ := commandState_completes hi s
    exact h.of_completedWith hc (commandState_writesOnlyArrays i s) (commandState_changesOnlyWriteSet i s).padMode

theorem Inv.engineTurn {s t : State} (h : Inv s) (ht : engineTurn s = .next t) : Inv t := by
  obtain ⟨-, rfl⟩ | ⟨w, i, hp, hd, rfl⟩ | ⟨-, rfl⟩ := engineTurn_next_cases ht
  · exact h
  · exact h.commandState hp hd
  · exact h.of_completedWith (completedWith_complete _ _) (.inl rfl) rfl

theorem Inv.busRead {s : State} (h : Inv s) (c : Config) (off : Nat) : Inv (busRead c off s) := by
  rw [busRead_frame]
  exact { h with }

/-- DONE can only be cleared by a write of STATUS (10_state.md R24). -/
theorem Inv.writeStatus {s : State} (h : Inv s) (v : Word) : Inv (writeStatus v s) :=
  { h with busyFlags := fun hb => by simpa [(h.busyFlags hb).1] using (h.busyFlags hb).2 }

theorem warlPadMode_ne_entropy {old : PadMode} (hold : old ≠ .entropy) (field : BitVec 2) :
    warlPadMode false old field ≠ .entropy := by
  unfold warlPadMode
  split
  case h_2 | h_4 => exact hold
  all_goals decide

theorem Inv.writeCtrl {s : State} (h : Inv s) (v : Word) : Inv (writeCtrl config v s) :=
  { h with
    padLegal := fun hno => by
      rw [writeCtrl_padMode, hno]
      exact warlPadMode_ne_entropy (h.padLegal hno) _ }

/-- A command just accepted has DONE = 0, ERR = 0 and no loop in progress (10_state.md R45). -/
theorem Inv.accept {s : State} (h : Inv s) (w : Word) : Inv (accept w s) :=
  { h with
    busyFlags := fun _ => ⟨rfl, rfl⟩
    errDefined := Nat.zero_le _
    searchOwned := fun _ hp => nomatch hp }

/-- An aligned word of a byte array lies in it (20_memory.md R62). -/
theorem writesOnlyArrays_writeWord (m : Memory) {off : Nat} (h4 : off % 4 = 0) (ho : inByteArray off = true)
    (v : Word) : WritesOnlyArrays m (m.writeWord off v) := by
  have hrange := of_decide_eq_true ho
  exact writesOnlyArrays_writeBytes m (le32_length v) (by omega)

theorem Inv.idleWrite {s : State} (h : Inv s) {off : Nat} (h4 : off % 4 = 0) (v : Word) :
    Inv (idleWrite config off v s) := by
  have hword (hr : regAt off ∈ [.key, .blk, .seed, .data, .frame]) :=
    (writesOnlyArrays_writeWord s.mem h4 ((inByteArray_iff off).mpr hr) v).keeps h.canonical h.arraysOnly
  unfold Machine.idleWrite
  cases hr : regAt off
  case cmd => exact h.accept v
  case status => exact h.writeStatus v
  case ctrl => exact h.writeCtrl v
  case key | blk | seed | data | frame =>
    obtain ⟨hwf, harr⟩ := hword (by simp [hr])
    exact { h with canonical := hwf, arraysOnly := harr }
  all_goals exact { h with }

theorem Inv.busyWrite {s : State} (h : Inv s) (off : Nat) (v : Word) : Inv (busyWrite off v s) := by
  unfold Machine.busyWrite
  cases regAt off
  case status => exact h.writeStatus v
  all_goals exact { h with }

theorem Inv.busWrite {s : State} (h : Inv s) {off : Nat} (h4 : off % 4 = 0) (v : Word) :
    Inv (busWrite config off v s) := by
  obtain ⟨-, ht⟩ | ⟨-, ht⟩ := busWrite_eq config off v s <;> rw [ht]
  · exact h.idleWrite h4 v
  · exact h.busyWrite off v

/-- Settles O7, by the kinds of step: the engine's turn, a read, a write, a reset, a poll. -/
theorem stepKeepsInvariant : Obligations.StepKeepsInvariant := by
  unfold Obligations.StepKeepsInvariant
  intro s t hs h
  have hrest : Inv (withAgenda s.agenda.tail s) := { hs with }
  obtain ⟨-, hturn⟩ | ⟨off, -, -, -, rfl⟩ | ⟨off, v, -, h4, -, rfl⟩ | ⟨-, rfl⟩ | ⟨-, rfl⟩ := step_cases h
  · exact hrest.engineTurn hturn
  · exact hrest.busRead config off
  · exact hrest.busWrite h4 v
  · exact { resetStateIsInvariant with }
  · exact { hs with }

end Sys2Proof.Machine

/-!
The host's accesses (20_memory.md R61 to R67): which offsets the remaining names of the register map cover, one rule
each for an exact read, a read in the hazard, an idle write and a busy write, and what the host sees through them.
-/
namespace Sys2Proof.Machine

/-! ### The register map (10_state.md R22, R40) -/

/-- The write-only, constant and unnamed parts of the map; `regAt_eq_array_iff` has the windows. -/
theorem regAt_eq_other_iff (a : Nat) :
    (regAt a = .key ↔ 0x040 ≤ a ∧ a < 0x050) ∧ (regAt a = .seed ↔ 0x060 ≤ a ∧ a < 0x080) ∧
      (regAt a = .id ↔ 0x080 ≤ a ∧ a < 0x084) ∧
      (regAt a = .reserved ↔ (0x030 ≤ a ∧ a < 0x040) ∨ (0x084 ≤ a ∧ a < 0x100) ∨ 0x400 ≤ a) := by
  unfold regAt
  split_ifs
  · split <;> simp only [reduceCtorEq, false_iff] <;> omega
  all_goals simp only [false_iff, true_iff]; omega

theorem regAt_mem_windows {a : Nat} (h : (0x050 ≤ a ∧ a < 0x060) ∨ (0x100 ≤ a ∧ a < 0x400)) :
    regAt a ∈ [.blk, .data, .frame] := by
  obtain ⟨hblk, hdata, hframe⟩ := regAt_eq_array_iff a
  simp only [List.mem_cons, List.not_mem_nil, or_false, hblk, hdata, hframe]
  omega

theorem regAt_mem_zeroReading {a : Nat}
    (h : (0x030 ≤ a ∧ a < 0x050) ∨ (0x060 ≤ a ∧ a < 0x080) ∨ (0x084 ≤ a ∧ a < 0x100) ∨ 0x400 ≤ a) :
    regAt a ∈ [.key, .seed, .reserved] := by
  obtain ⟨hkey, hseed, -, hreserved⟩ := regAt_eq_other_iff a
  simp only [List.mem_cons, List.not_mem_nil, or_false, hkey, hseed, hreserved]
  omega

/-- The offsets that ignore a write (20_memory.md R64, R67). -/
theorem regAt_mem_readOnly {a : Nat} (h : a ∈ [0x014, 0x020, 0x024] ∨ (0x030 ≤ a ∧ a < 0x040) ∨
    (0x080 ≤ a ∧ a < 0x100) ∨ 0x400 ≤ a) : regAt a ∈ [.dcount, .result, .errinfo, .id, .reserved] := by
  obtain hreg | hrange := h
  · revert a
    decide
  · obtain ⟨-, -, hid, hreserved⟩ := regAt_eq_other_iff a
    simp only [List.mem_cons, List.not_mem_nil, or_false, hid, hreserved]
    omega

/-- The offsets whose write is dropped while BUSY (20_memory.md R67). -/
theorem regAt_mem_operands {a : Nat} (h : a ∈ [0x000, 0x008, 0x00C, 0x010, 0x018, 0x01C, 0x028, 0x02C] ∨
    (0x040 ≤ a ∧ a < 0x080) ∨ (0x100 ≤ a ∧ a < 0x400)) :
    regAt a ∈ [.cmd, .ctrl, .seq, .ecount, .dlen, .flen, .candLo, .candHi] ∨
      regAt a ∈ [.key, .blk, .seed, .data, .frame] := by
  obtain hreg | hrange := h
  · left
    revert a
    decide
  · exact .inr ((inByteArray_iff a).mp (decide_eq_true hrange))

/-! ### Inadmissible accesses (R61) -/

theorem admitted_iff (width : AccessWidth) (off : Nat) :
    admitted width off = true ↔ width = .word ∧ off % 4 = 0 ∧ off < 0x1000 := decide_eq_true_iff

/-- Settles O15: the test of `hostRead` and of `hostWrite` is R61's form. -/
theorem inadmissibleAccessFaults : Obligations.InadmissibleAccessFaults := by
  unfold Obligations.InadmissibleAccessFaults
  intro s width off v
  have hreads : step { s with agenda := .read width off :: s.agenda } = hostRead config width off s := rfl
  have hwrites : step { s with agenda := .write width off v :: s.agenda } = hostWrite config width off v s := rfl
  simp only [hreads, hwrites, hostRead, hostWrite, admitted_iff]
  split
  · exact ⟨⟨_, rfl⟩, _, rfl⟩
  · exact ⟨rfl, rfl⟩

/-! ### Reads (R63, R66) -/

/-- Settles O19: a read has no effect but its answer and the count of draws. -/
theorem readsHaveNoSideEffect : Obligations.ReadsHaveNoSideEffect := by
  unfold Obligations.ReadsHaveNoSideEffect
  intro s off h4 hoff
  exact ⟨_, hostReads_eq s h4 hoff, busRead_frame config off s⟩

/-- A read outside the hazard answers the register's value and changes nothing else (R63). -/
theorem hostReads_exact {s : State} {off : Nat} (h4 : off % 4 = 0) (hoff : off < 0x1000)
    (hz : inHazard s off = false) : hostReads off s = .next { s with readData := some (regValue s off) } := by
  rw [hostReads_eq s h4 hoff, busRead, hz]
  rfl

/-- A read in the hazard answers a draw (R66; log 4). -/
theorem hostReads_hazard {s : State} {off : Nat} (h4 : off % 4 = 0) (hoff : off < 0x1000)
    (hz : inHazard s off = true) : hostReads off s =
      .next { s with readData := some (config.busyRead s.busyDraws), busyDraws := s.busyDraws + 1 } := by
  rw [hostReads_eq s h4 hoff, busRead, hz]
  rfl

theorem inHazard_idle {s : State} (hs : s.pending = none) (off : Nat) : inHazard s off = false := by
  rw [inHazard, hs]

/-- While IDLE every word reads exactly (R63). -/
theorem hostReads_idle {s : State} (hs : s.pending = none) {off : Nat} {v : Word} (h4 : off % 4 = 0)
    (hoff : off < 0x1000) (hv : regValue s off = v) : hostReads off s = .next { s with readData := some v } := by
  rw [hostReads_exact h4 hoff (inHazard_idle hs off), hv]

/-- STATUS bit by bit (10_state.md R24). -/
theorem statusWord_eq (s : State) : statusWord s =
    s.err.setWidth 32 <<< 8 ||| (if s.seeded then 8 else 0) ||| (if s.ovr then 4 else 0) |||
      (if s.done then 2 else 0) ||| (if s.busy then 1 else 0) := by
  unfold statusWord flagBit
  cases s.seeded <;> cases s.ovr <;> cases s.done <;> cases s.busy <;> rfl

theorem regValue_status (s : State) : regValue s 0x004 = statusWord s := rfl

theorem regValue_eq_zero {s : State} {off : Nat} (h : regAt off ∈ [.key, .seed, .reserved]) : regValue s off = 0 := by
  unfold regValue
  cases hr : regAt off
  case key | seed | reserved | cmd => rfl
  all_goals simp [hr] at h

theorem regValue_eq_readWord {s : State} {off : Nat} (h : regAt off ∈ [.blk, .data, .frame]) :
    regValue s off = s.mem.readWord off := by
  unfold regValue
  cases hr : regAt off
  case blk | data | frame => rfl
  all_goals simp [hr] at h

/-- Settles O18, register by register, and window by window through the map. -/
theorem idleReadsReturnRegisters : Obligations.IdleReadsReturnRegisters := by
  unfold Obligations.IdleReadsReturnRegisters
  intro s hs
  have hstatus : regValue s 0x004 = s.err.setWidth 32 <<< 8 ||| (if s.seeded then 8 else 0) |||
      (if s.ovr then 4 else 0) ||| (if s.done then 2 else 0) := by
    have hbusy : s.busy = false := by rw [State.busy, hs]; rfl
    simp [regValue_status, statusWord_eq, hbusy]
  have hlo : regValue s 0x028 = s.cand.setWidth 32 := (BitVec.setWidth_eq_extractLsb' (by decide)).symm
  have hhi : regValue s 0x02C = (s.cand >>> 32).setWidth 32 := BitVec.setWidth_ushiftRight_eq_extractLsb.symm
  have hread {off : Nat} {v : Word} (h4 : off % 4 = 0) (hoff : off < 0x1000) (hv : regValue s off = v) :=
    hostReads_idle hs h4 hoff hv
  refine ⟨hread rfl (by decide) rfl, hread rfl (by decide) hstatus, hread rfl (by decide) rfl,
    hread rfl (by decide) rfl, hread rfl (by decide) rfl, hread rfl (by decide) rfl, hread rfl (by decide) rfl,
    hread rfl (by decide) rfl, hread rfl (by decide) rfl, hread rfl (by decide) rfl, hread rfl (by decide) hlo,
    hread rfl (by decide) hhi, hread rfl (by decide) rfl, fun off h4 hoff => ?_, fun off h4 hoff => ?_⟩
  · exact hread h4 (by omega) (regValue_eq_zero (regAt_mem_zeroReading (by omega)))
  · exact hread h4 (by omega) (regValue_eq_readWord (regAt_mem_windows hoff))

/-- The hazard of a pending command is its rule's list; an illegal word has none (R66, R85). -/
theorem inHazard_eq_true_iff {s : State} {w : Word} (hs : s.pending = some w) {off : Nat} (h4 : off % 4 = 0)
    (hoff : off < 0x1000) : inHazard s off = true ↔ ∃ i, decode w = .ok i ∧ listedWrite i off = true := by
  simp only [inHazard, hs, wordWriteSet]
  cases decode w with
  | ok i => simp [← writeSet_listed i h4 hoff]
  | error r => simp

/-- Settles O20: the hazard is the listed write set. -/
theorem busyReadsOfWriteSetAreFree : Obligations.BusyReadsOfWriteSetAreFree := by
  unfold Obligations.BusyReadsOfWriteSetAreFree
  intro s w off hs h4 hoff
  have hiff := inHazard_eq_true_iff hs h4 hoff
  refine ⟨fun hlisted => hostReads_hazard h4 hoff (hiff.mpr hlisted), fun hnot => hostReads_exact h4 hoff ?_⟩
  rw [Bool.eq_false_iff, ne_eq, hiff]
  rintro ⟨i, hd, hlisted⟩
  exact absurd hlisted (Bool.eq_false_iff.mp (hnot i hd))

/-- Settles O21: STATUS is never in the hazard, and the invariant gives DONE = 0 and ERR = 0. -/
theorem busyStatusReadsExactly : Obligations.BusyStatusReadsExactly := by
  unfold Obligations.BusyStatusReadsExactly
  intro s hinv hs
  obtain ⟨hdone, herr⟩ := hinv.busyFlags hs
  have hstatus : regValue s 0x004 = (if s.seeded then 8 else 0) ||| (if s.ovr then 4 else 0) ||| 1 := by
    simp [regValue_status, statusWord_eq, hdone, herr, State.busy, hs]
  have hz : inHazard s 0x004 = false := inHazard_status s
  rw [hostReads_exact rfl (by decide) hz, hstatus]

/-! ### Writes while IDLE (R62, R64) -/

theorem idleWrite_readOnly {c : Config} {off : Nat} (h : regAt off ∈ [.dcount, .result, .errinfo, .id, .reserved])
    (v : Word) (s : State) : idleWrite c off v s = s := by
  unfold idleWrite
  cases hr : regAt off
  case dcount | result | errinfo | id | reserved => rfl
  all_goals simp [hr] at h

theorem idleWrite_array {c : Config} {off : Nat} (h : regAt off ∈ [.key, .blk, .seed, .data, .frame]) (v : Word)
    (s : State) : idleWrite c off v s = { s with mem := s.mem.writeWord off v } := by
  unfold idleWrite
  cases hr : regAt off
  case key | blk | seed | data | frame => rfl
  all_goals simp [hr] at h

theorem joinWords_setWidth (hi lo : Word) : (joinWords hi lo).setWidth 32 = lo := by
  rw [BitVec.setWidth_eq_extractLsb' (by decide), joinWords_low]

theorem joinWords_high_ushiftRight (n : Cand) (lo : Word) : joinWords (n.extractLsb' 32 32) lo >>> 32 = n >>> 32 := by
  apply BitVec.eq_of_toNat_eq
  have := n.isLt
  have := lo.isLt
  simp only [BitVec.toNat_ushiftRight, BitVec.extractLsb'_toNat, Nat.shiftRight_eq_div_pow, joinWords_toNat]
  omega

/-- Settles O22: each write is its arm of `idleWrite`; a write of half of CAND joins it to the other half. -/
theorem idleWritesSetRegisters : Obligations.IdleWritesSetRegisters := by
  unfold Obligations.IdleWritesSetRegisters
  intro s v hs
  have hhalf : v.setWidth 16 = v.extractLsb' 0 16 := BitVec.setWidth_eq_extractLsb' (by decide)
  have hhi (hi lo : Word) : (joinWords hi lo >>> 32).setWidth 32 = hi := by
    rw [BitVec.setWidth_ushiftRight_eq_extractLsb, joinWords_high]
  rw [hhalf]
  refine ⟨hostWrites_status v s, hostWrites_idle hs v rfl (by decide), hostWrites_idle hs v rfl (by decide),
    hostWrites_idle hs v rfl (by decide), hostWrites_idle hs v rfl (by decide),
    ⟨_, hostWrites_idle hs v rfl (by decide), joinWords_setWidth _ v, joinWords_high_ushiftRight s.cand v⟩,
    ⟨_, hostWrites_idle hs v rfl (by decide), hhi v _, ?_⟩, fun off h4 hoff => ?_⟩
  · rw [joinWords_setWidth, BitVec.setWidth_eq_extractLsb' (by decide)]
  · have hreadOnly : regAt off ∈ [.dcount, .result, .errinfo, .id, .reserved] := by
      apply regAt_mem_readOnly
      simp only [List.mem_cons, List.not_mem_nil, or_false]
      omega
    rw [hostWrites_idle hs v h4 (by omega), idleWrite_readOnly hreadOnly]

/-- An idle write into a byte array stores the word there and does nothing else (R62, R64). -/
theorem hostWrites_array {s : State} (hs : s.pending = none) {off : Nat} (v : Word) (h4 : off % 4 = 0)
    (hoff : (0x040 ≤ off ∧ off < 0x080) ∨ (0x100 ≤ off ∧ off < 0x400)) :
    hostWrites off v s = .next { s with mem := s.mem.writeWord off v } := by
  have harr := (inByteArray_iff off).mp (decide_eq_true hoff)
  rw [hostWrites_idle hs v h4 (by omega), idleWrite_array harr]

/-- Settles O24, from what a read after a word write gives. -/
theorem idleWritesStoreBytesLittleEndian : Obligations.IdleWritesStoreBytesLittleEndian := by
  unfold Obligations.IdleWritesStoreBytesLittleEndian
  intro s v off hs h4 hoff
  refine ⟨_, hostWrites_array hs v h4 hoff, rfl, fun k hk => ?_, fun a ha => ?_⟩
  · rw [Memory.read_writeWord, if_pos (by omega), Nat.add_sub_cancel_left]
  · rw [Memory.read_writeWord, if_neg (by omega)]

/-- The four bytes stored make up the word again (R62). -/
theorem Memory.readWord_writeWord (m : Memory) (off : Nat) (v : Word) : (m.writeWord off v).readWord off = v := by
  simp [Memory.readWord, Memory.read_writeWord]

/-- Settles O25: the word written is what the window then holds, and nothing is pending when it is read. -/
theorem windowWordReadsBack : Obligations.WindowWordReadsBack := by
  unfold Obligations.WindowWordReadsBack
  intro s v off hs h4 hoff
  have hvalue : regValue { s with mem := s.mem.writeWord off v } off = v := by
    rw [regValue_eq_readWord (regAt_mem_windows hoff), Memory.readWord_writeWord]
  exact ⟨_, _, hostWrites_array hs v h4 (by omega), hostReads_idle (by exact hs) h4 (by omega) hvalue, rfl⟩

/-! ### Writes while BUSY (R67) -/

theorem hostWrites_busy {s : State} (hs : s.pending.isSome = true) {off : Nat} (v : Word) (h4 : off % 4 = 0)
    (hoff : off < 0x1000) : hostWrites off v s = .next (busyWrite off v s) := by
  rw [hostWrites_eq v s h4 hoff, busWrite, State.busy, if_pos hs]

theorem busyWrite_readOnly {off : Nat} (h : regAt off ∈ [.dcount, .result, .errinfo, .id, .reserved]) (v : Word)
    (s : State) : busyWrite off v s = s := by
  unfold busyWrite
  cases hr : regAt off
  case dcount | result | errinfo | id | reserved => rfl
  all_goals simp [hr] at h

theorem busyWrite_operand {off : Nat} (h : regAt off ∈ [.cmd, .ctrl, .seq, .ecount, .dlen, .flen, .candLo, .candHi] ∨
    regAt off ∈ [.key, .blk, .seed, .data, .frame]) (v : Word) (s : State) :
    busyWrite off v s = { s with ovr := true } := by
  unfold busyWrite
  cases hr : regAt off
  case status | dcount | result | errinfo | id | reserved => simp [hr] at h
  all_goals rfl

/-- Settles O26: the three kinds of offset of R67. -/
theorem busyWritesAreDropped : Obligations.BusyWritesAreDropped := by
  unfold Obligations.BusyWritesAreDropped
  intro s v off hs h4 hoff
  refine ⟨fun hoperand => ?_, ?_, fun hreadOnly => ?_⟩
  · rw [hostWrites_busy hs v h4 hoff, busyWrite_operand (regAt_mem_operands hoperand)]
  · rintro rfl
    exact hostWrites_status v s
  · rw [hostWrites_busy hs v h4 hoff, busyWrite_readOnly (regAt_mem_readOnly hreadOnly)]

end Sys2Proof.Machine

/-!
Command words (30_encoding.md R80 to R89): the encoder's words decode to their commands, RSV and OP of a word as
numbers, what the map does with an OP outside it; and the turn that meets an ILLEGAL word.
-/
namespace Sys2Proof.Machine

/-! ### The encoder (R82, R89) -/

/-- The family `Laws.CommandWord`, for every command at once. -/
theorem commandWord_statement (i : Instr) : Laws.CommandWord.Statement i := by
  cases i with
  | aesEncBlk => exact Laws.CommandWord.aesEncBlk
  | aesDecBlk => exact Laws.CommandWord.aesDecBlk
  | ckCalc => exact Laws.CommandWord.ckCalc
  | ckVerify => exact Laws.CommandWord.ckVerify
  | packingLen => exact Laws.CommandWord.packingLen
  | envEncrypt => exact Laws.CommandWord.envEncrypt
  | envDecrypt => exact Laws.CommandWord.envDecrypt
  | rngSeed => exact Laws.CommandWord.rngSeed
  | rngEntropy => exact Laws.CommandWord.rngEntropy
  | primeTest => exact Laws.CommandWord.primeTest
  | primeGen => exact Laws.CommandWord.primeGen

@[simp] theorem decode_encode (i : Instr) : decode (encode i) = .ok i := by
  obtain ⟨-, -, hdecode, -⟩ := commandWord_statement i
  exact hdecode

/-- Settles O1: each command's word decodes to it, and no other word does. -/
theorem decodeAcceptsExactlyEncodings : Obligations.DecodeAcceptsExactlyEncodings := by
  unfold Obligations.DecodeAcceptsExactlyEncodings
  intro w i
  refine ⟨eq_encode_of_decode, ?_⟩
  rintro rfl
  exact decode_encode i

/-! ### The two rejections of a word (R84) -/

/-- RSV is what is left of the word above its low byte (R80). -/
theorem wordRsv_toNat (w : Word) : (wordRsv w).toNat = w.toNat / 256 := by
  rw [wordRsv, BitVec.extractLsb'_toNat, Nat.shiftRight_eq_div_pow]
  exact Nat.mod_eq_of_lt (by omega)

/-- OP is the word's low byte (R80). -/
theorem wordOp_eq_ofNat (w : Word) : wordOp w = BitVec.ofNat 8 w.toNat := rfl

theorem decode_of_rsv_ne_zero {w : Word} (h : w.toNat / 256 ≠ 0) : decode w = .error .reservedBits := by
  have hrsv : wordRsv w ≠ 0 := fun h0 => h (by rw [← wordRsv_toNat, h0]; rfl)
  rw [decode, if_pos hrsv]

theorem decode_of_rsv_eq_zero {w : Word} (h : w.toNat / 256 = 0) : decode w = decodeOp (BitVec.ofNat 8 w.toNat) := by
  have hrsv : wordRsv w = 0 := BitVec.eq_of_toNat_eq ((wordRsv_toNat w).trans h)
  rw [decode, if_neg (not_not.mpr hrsv), wordOp_eq_ofNat]

/-- An OP outside the map of R82 meets none of the arms of the map. -/
theorem decodeOp_of_not_mem_definedOps {op : Byte} (h : op.toNat ∉ definedOps) :
    decodeOp op = .error (.unknownOp op) := by
  unfold decodeOp
  split
  case h_12 => rfl
  all_goals exact absurd (by simp [definedOps, *]) h

/-- The OP values of R82 are the numbers of the commands' words (R89). -/
theorem mem_definedOps {n : Nat} (h : n ∈ definedOps) : ∃ i, n = (encode i).toNat := by
  have hmap : definedOps = [.aesEncBlk, .aesDecBlk, .ckCalc, .ckVerify, .packingLen, .envEncrypt, .envDecrypt, .rngSeed,
      .rngEntropy, .primeTest, .primeGen].map fun i => (encode i).toNat := by decide
  rw [hmap] at h
  obtain ⟨i, -, hi⟩ := List.mem_map.mp h
  exact ⟨i, hi.symm⟩

/-- Settles O2: RSV is tested first, then the map of OP. -/
theorem reservedWordsAreRejected : Obligations.ReservedWordsAreRejected := by
  unfold Obligations.ReservedWordsAreRejected
  intro w
  refine ⟨decode_of_rsv_ne_zero, fun hrsv hop => ?_, fun hop => ?_⟩
  · have hlow : (BitVec.ofNat 8 w.toNat).toNat = w.toNat := Nat.mod_eq_of_lt (by omega)
    rw [decode_of_rsv_eq_zero hrsv, decodeOp_of_not_mem_definedOps (by rwa [hlow])]
  · obtain ⟨i, hi⟩ := mem_definedOps hop
    obtain rfl : w = encode i := BitVec.eq_of_toNat_eq hi
    exact ⟨i, decode_encode i⟩

/-- Settles O3: four of the words are their commands' encodings, the fifth has RSV = 1, and the bytes of the last make
up the word of ENV_DECRYPT. -/
theorem sampleWordsDecode : Obligations.SampleWordsDecode := by
  unfold Obligations.SampleWordsDecode
  exact ⟨decode_encode .aesEncBlk, decode_encode .ckVerify, decode_encode .envEncrypt, decode_encode .primeGen,
    decode_of_rsv_ne_zero (by decide), rfl⟩

/-! ### The turn that meets an ILLEGAL word (R85) -/

/-- Settles O9: the turn is `complete`, whose four writes are the ones stated. -/
theorem illegalWordCompletes : Obligations.IllegalWordCompletes := by
  unfold Obligations.IllegalWordCompletes
  intro s w r hpending hd
  exact ⟨complete .illegalCmd s, by rw [engineActs_eq, engineTurn_illegal hpending hd], rfl⟩

end Sys2Proof.Machine

/-!
The AES unit (40_aes_block.md): GF(2^8) as a commutative ring, each transformation of a block undone by its inverse,
a run of rounds undone by the run of inverse rounds over the reversed round keys; ECB block by block; and the two
commands on BLK.
-/
namespace Sys2Proof.Machine

/-! ### Multiplication in GF(2^8) (R102) -/

theorem xtime_xor (a b : Byte) : xtime (a ^^^ b) = xtime a ^^^ xtime b := by
  have hcarry (p q : Bool) :
      (if (p ^^ q) then 0x1B else 0 : Byte) = (if p then 0x1B else 0) ^^^ (if q then 0x1B else 0) := by
    cases p <;> cases q <;> rfl
  rw [xtime, xtime, xtime, BitVec.shiftLeft_xor_distrib, BitVec.getLsbD_xor, hcarry]
  ac_rfl

theorem gfMulBits_xor (n : Nat) (a b k : Byte) :
    gfMulBits n (a ^^^ b) k = gfMulBits n a k ^^^ gfMulBits n b k := by
  induction n generalizing a b k with
  | zero => exact BitVec.xor_zero.symm
  | succ n ih =>
    simp only [gfMulBits, xtime_xor, ih]
    split
    · ac_rfl
    · simp

/-- An additive map that commutes with `xtime` can be taken out of a product. -/
theorem gfMulBits_comm_additive {f : Byte → Byte} (hadd : ∀ a b, f (a ^^^ b) = f a ^^^ f b)
    (hxtime : ∀ a, f (xtime a) = xtime (f a)) (n : Nat) (a k : Byte) : gfMulBits n (f a) k = f (gfMulBits n a k) := by
  have hzero : f 0 = 0 := by simpa using hadd 0 0
  induction n generalizing a k with
  | zero => exact hzero.symm
  | succ n ih =>
    simp only [gfMulBits, hadd, ← hxtime, ih]
    split
    · rfl
    · rw [hzero]

theorem gfMul_xor_left (a b k : Byte) : gfMul (a ^^^ b) k = gfMul a k ^^^ gfMul b k := gfMulBits_xor 8 a b k

theorem gfMul_xtime (a k : Byte) : gfMul (xtime a) k = xtime (gfMul a k) :=
  gfMulBits_comm_additive xtime_xor (fun _ => rfl) 8 a k

theorem gfMul_right_comm (a j k : Byte) : gfMul (gfMul a j) k = gfMul (gfMul a k) j :=
  gfMulBits_comm_additive (f := (gfMul · j)) (gfMul_xor_left · · j) (gfMul_xtime · j) 8 a k

theorem one_gfMul : ∀ k : Byte, gfMul 1 k = k := by decide +kernel

theorem gfMul_comm (a k : Byte) : gfMul a k = gfMul k a := by
  simpa only [one_gfMul] using gfMul_right_comm 1 a k

theorem gfMul_assoc (a j k : Byte) : gfMul (gfMul a j) k = gfMul a (gfMul j k) := by
  rw [gfMul_comm a j, gfMul_right_comm, gfMul_comm]

theorem gfMul_xor_right (a j k : Byte) : gfMul a (j ^^^ k) = gfMul a j ^^^ gfMul a k := by
  rw [gfMul_comm, gfMul_xor_left, gfMul_comm j, gfMul_comm k]

@[simp] theorem gfMul_one (a : Byte) : gfMul a 1#8 = a := (gfMul_comm a 1).trans (one_gfMul a)

@[simp] theorem gfMul_zero (a : Byte) : gfMul a 0#8 = 0#8 := by simpa using gfMul_xor_right a 0 0

/-! ### The S-boxes (R104, R105) -/

/-- The affine map A of R104. -/
def affine (i : Byte) : Byte := i ^^^ i.rotateLeft 1 ^^^ i.rotateLeft 2 ^^^ i.rotateLeft 3 ^^^ i.rotateLeft 4

/-- The inverse of the affine map A. -/
def invAffine (x : Byte) : Byte := x.rotateLeft 1 ^^^ x.rotateLeft 3 ^^^ x.rotateLeft 6

theorem affine_invAffine : ∀ x : Byte, affine (invAffine x) = x := by decide +kernel

/-- A table entry, taken back through the affine map, is the inverse in GF(2^8) of the byte it stands for. -/
theorem gfMul_invAffine_sbox : ∀ b : Byte, b ≠ 0 → gfMul b (invAffine (sbox b ^^^ 0x63)) = 1 := by decide +kernel

/-- Settles O30: the byte is the table's entry taken back through the affine map. -/
theorem sboxIsAffineInverse : Obligations.SboxIsAffineInverse := by
  unfold Obligations.SboxIsAffineInverse
  intro b
  refine ⟨invAffine (sbox b ^^^ 0x63), ?_, gfMul_invAffine_sbox b, ?_⟩
  · rintro rfl
    rfl
  · have haffine : affine (invAffine (sbox b ^^^ 0x63)) = sbox b ^^^ 0x63 := affine_invAffine _
    rw [affine] at haffine
    rw [haffine, BitVec.xor_assoc, BitVec.xor_self, BitVec.xor_zero]

@[simp] theorem invSbox_sbox : ∀ b : Byte, invSbox (sbox b) = b := by decide +kernel

@[simp] theorem sbox_invSbox : ∀ b : Byte, sbox (invSbox b) = b := by decide +kernel

/-! ### Each transformation and its inverse (R106 to R109) -/

@[simp] theorem invSubBytes_subBytes (s : Block) : invSubBytes (subBytes s) = s := by
  simp [invSubBytes, subBytes, Block.map, Quad.map]

@[simp] theorem subBytes_invSubBytes (s : Block) : subBytes (invSubBytes s) = s := by
  simp [invSubBytes, subBytes, Block.map, Quad.map]

@[simp] theorem invShiftRows_shiftRows (s : Block) : invShiftRows (shiftRows s) = s := rfl

@[simp] theorem shiftRows_invShiftRows (s : Block) : shiftRows (invShiftRows s) = s := rfl

/-- Two circulant matrices one after the other are the circulant of the cyclic product of their first rows. -/
theorem circulant_circulant (j0 j1 j2 j3 k0 k1 k2 k3 : Byte) (a : Quad) :
    circulant k0 k1 k2 k3 (circulant j0 j1 j2 j3 a) =
      circulant (gfMul j0 k0 ^^^ gfMul j3 k1 ^^^ gfMul j2 k2 ^^^ gfMul j1 k3)
        (gfMul j1 k0 ^^^ gfMul j0 k1 ^^^ gfMul j3 k2 ^^^ gfMul j2 k3)
        (gfMul j2 k0 ^^^ gfMul j1 k1 ^^^ gfMul j0 k2 ^^^ gfMul j3 k3)
        (gfMul j3 k0 ^^^ gfMul j2 k1 ^^^ gfMul j1 k2 ^^^ gfMul j0 k3) a := by
  simp only [circulant, gfMul_xor_left, gfMul_xor_right, gfMul_assoc, Quad.mk.injEq]
  refine ⟨?_, ?_, ?_, ?_⟩ <;> ac_rfl

theorem circulant_one (a : Quad) : circulant 1 0 0 0 a = a := by simp [circulant]

/-- The two matrices of R108 are inverse to each other, in either order. -/
theorem mixColumn_inverse (a : Quad) :
    circulant 14 11 13 9 (circulant 2 3 1 1 a) = a ∧ circulant 2 3 1 1 (circulant 14 11 13 9 a) = a := by
  rw [circulant_circulant, circulant_circulant]
  exact ⟨circulant_one a, circulant_one a⟩

@[simp] theorem invMixColumns_mixColumns (s : Block) : invMixColumns (mixColumns s) = s := by
  simp only [invMixColumns, mixColumns, Block.map, mixColumn_inverse]

@[simp] theorem mixColumns_invMixColumns (s : Block) : mixColumns (invMixColumns s) = s := by
  simp only [invMixColumns, mixColumns, Block.map, mixColumn_inverse]

@[simp] theorem addRoundKey_addRoundKey (k s : Block) : addRoundKey k (addRoundKey k s) = s := by
  simp [addRoundKey, Quad.xor]

/-! ### The rounds (R111, R112) -/

/-- A round of R111 that mixes columns. -/
def encRound (s k : Block) : Block := addRoundKey k (mixColumns (shiftRows (subBytes s)))

/-- A round of R112 that mixes columns back. -/
def decRound (s k : Block) : Block := invMixColumns (addRoundKey k (invSubBytes (invShiftRows s)))

theorem encRounds_concat (ks : List Block) (k s : Block) :
    encRounds (ks ++ [k]) s = addRoundKey k (shiftRows (subBytes (ks.foldl encRound s))) := by
  induction ks generalizing s with
  | nil => rfl
  | cons k' ks ih =>
    rw [List.foldl_cons, ← ih]
    cases ks <;> rfl

theorem decRounds_concat (ks : List Block) (k s : Block) :
    decRounds (ks ++ [k]) s = addRoundKey k (invSubBytes (invShiftRows (ks.foldl decRound s))) := by
  induction ks generalizing s with
  | nil => rfl
  | cons k' ks ih =>
    rw [List.foldl_cons, ← ih]
    cases ks <;> rfl

/-- When g undoes f behind e for each key, a run of g over the reversed keys undoes a run of f behind e. -/
theorem foldl_reverse_undoes_foldl {α β : Type} {f g : β → α → β} {e : β → β} (h : ∀ s k, g (e (f s k)) k = e s)
    (ks : List α) (s : β) : ks.reverse.foldl g (e (ks.foldl f s)) = e s := by
  induction ks generalizing s with
  | nil => rfl
  | cons k ks ih => rw [List.foldl_cons, List.reverse_cons, List.foldl_append, ih, List.foldl_cons, List.foldl_nil, h]

/-- InvMixColumns comes after AddRoundKey in R112, so an inverse round undoes a round behind SubBytes and ShiftRows. -/
theorem decRound_encRound (s k : Block) : decRound (shiftRows (subBytes (encRound s k))) k = shiftRows (subBytes s) := by
  simp [decRound, encRound]

theorem encRound_decRound (s k : Block) :
    encRound (invSubBytes (invShiftRows (decRound s k))) k = invSubBytes (invShiftRows s) := by
  simp [decRound, encRound]

/-! ### The cipher (R111 to R113) -/

/-- The key schedule gives a first and a last round key and those between them (R110). -/
theorem exists_keyExpansion_eq (key : Block) : ∃ k0 ks k10, keyExpansion key = k0 :: (ks ++ [k10]) := by
  obtain ⟨ks, k10, h⟩ := (List.eq_nil_or_concat' (roundKeysAfter rconTable key)).resolve_left (List.cons_ne_nil _ _)
  exact ⟨key, ks, k10, by rw [keyExpansion, h]⟩

theorem aesEnc_eq {key k0 k10 : Block} {ks : List Block} (h : keyExpansion key = k0 :: (ks ++ [k10])) (s : Block) :
    aesEnc key s = addRoundKey k10 (shiftRows (subBytes (ks.foldl encRound (addRoundKey k0 s)))) := by
  rw [← encRounds_concat]
  simp only [aesEnc, h]

theorem aesDec_eq {key k0 k10 : Block} {ks : List Block} (h : keyExpansion key = k0 :: (ks ++ [k10])) (s : Block) :
    aesDec key s = addRoundKey k0 (invSubBytes (invShiftRows (ks.reverse.foldl decRound (addRoundKey k10 s)))) := by
  have hreverse : (keyExpansion key).reverse = k10 :: (ks.reverse ++ [k0]) := by simp [h]
  rw [← decRounds_concat]
  simp only [aesDec, hreverse]

theorem aesDec_aesEnc (key s : Block) : aesDec key (aesEnc key s) = s := by
  obtain ⟨k0, ks, k10, h⟩ := exists_keyExpansion_eq key
  have hrounds := foldl_reverse_undoes_foldl (e := fun s => shiftRows (subBytes s)) decRound_encRound ks
    (addRoundKey k0 s)
  simp only [aesDec_eq h, aesEnc_eq h, addRoundKey_addRoundKey, hrounds, invShiftRows_shiftRows, invSubBytes_subBytes]

theorem aesEnc_aesDec (key s : Block) : aesEnc key (aesDec key s) = s := by
  obtain ⟨k0, ks, k10, h⟩ := exists_keyExpansion_eq key
  have hrounds := foldl_reverse_undoes_foldl (e := fun s => invSubBytes (invShiftRows s)) encRound_decRound
    ks.reverse (addRoundKey k10 s)
  rw [List.reverse_reverse] at hrounds
  simp only [aesDec_eq h, aesEnc_eq h, addRoundKey_addRoundKey, hrounds, subBytes_invSubBytes, shiftRows_invShiftRows]

@[simp] theorem Block.ofBytes_toBytes (s : Block) : Block.ofBytes s.toBytes = s := rfl

/-- Storing what was loaded gives the sixteen bytes back (R103). -/
theorem Block.toBytes_ofBytes {x : List Byte} (hx : x.length = 16) : (Block.ofBytes x).toBytes = x := by
  have hbytes : (Block.ofBytes x).toBytes = (List.range 16).map fun i => x.getD i 0 := rfl
  rw [hbytes]
  refine List.ext_getElem (by simp [hx]) fun i _ hi => ?_
  simp [hi]

theorem aes128Dec_aes128Enc (key : List Byte) {b : List Byte} (hb : b.length = 16) :
    aes128Dec key (aes128Enc key b) = b := by
  rw [aes128Dec, aes128Enc, Block.ofBytes_toBytes, aesDec_aesEnc, Block.toBytes_ofBytes hb]

theorem aes128Enc_aes128Dec (key : List Byte) {b : List Byte} (hb : b.length = 16) :
    aes128Enc key (aes128Dec key b) = b := by
  rw [aes128Dec, aes128Enc, Block.ofBytes_toBytes, aesEnc_aesDec, Block.toBytes_ofBytes hb]

/-- Settles O31, both ways, from the rounds undone in reverse. -/
theorem aesDecryptInvertsEncrypt : Obligations.AesDecryptInvertsEncrypt := by
  unfold Obligations.AesDecryptInvertsEncrypt
  intro key b hb
  exact ⟨aes128Dec_aes128Enc key hb, aes128Enc_aes128Dec key hb⟩

/-! ### ECB (R114) -/

/-- Block j of the result is the function of block j alone. -/
theorem ecbMap_block {f : List Byte → List Byte} (hf : ∀ x, (f x).length = 16) {nb j : Nat} (hj : j < nb)
    (x : List Byte) : ((ecbMap f nb x).drop (16 * j)).take 16 = f ((x.drop (16 * j)).take 16) := by
  induction nb generalizing x j with
  | zero => omega
  | succ nb ih =>
    rw [ecbMap]
    cases j with
    | zero => exact List.take_left' (hf _)
    | succ j =>
      have hoff : 16 * (j + 1) = 16 + 16 * j := by omega
      rw [hoff, ← List.drop_drop, List.drop_left' (hf _), ih (by omega), List.drop_drop]

/-- Settles O32, for both ciphers from `ecbMap_block`. -/
theorem ecbTransformsBlocksAlone : Obligations.EcbTransformsBlocksAlone := by
  unfold Obligations.EcbTransformsBlocksAlone
  intro key x nb j hj _
  exact ⟨ecbMap_length (aes128Enc_length key) nb x, ecbMap_length (aes128Dec_length key) nb x,
    ecbMap_block (aes128Enc_length key) hj x, ecbMap_block (aes128Dec_length key) hj x⟩

/-! ### The commands (R115, R116) -/

/-- The completion of a command that leaves sixteen bytes in BLK: those bytes, and nothing else changed. -/
theorem blkWrite_completes {s t : State} {bs : List Byte} (hlen : bs.length = 16)
    (ht : t = complete .ok { s with mem := s.mem.writeBytes blkBase bs }) :
    t.blkBytes = bs ∧ t = { s with mem := t.mem, err := 0, done := true, pending := none, search := none } ∧
      ∀ a, a < 0x050 ∨ 0x060 ≤ a → t.mem.read a = s.mem.read a := by
  subst ht
  refine ⟨?_, rfl, fun a ha => ?_⟩
  · rw [State.blkBytes, complete_mem, ← hlen, Memory.bytes_writeBytes]
  · exact Memory.read_writeBytes_outside _ _ _ _ (by rwa [hlen])

/-- Settles O33: the word is the command's encoding, and the command writes BLK alone. -/
theorem aesEncBlkEncryptsInPlace : Obligations.AesEncBlkEncryptsInPlace := by
  unfold Obligations.AesEncBlkEncryptsInPlace
  exact ⟨decode_encode .aesEncBlk, fun s =>
    ⟨_, exec_eq .aesEncBlk s, blkWrite_completes (aes128Enc_length s.keyBytes s.blkBytes) rfl⟩⟩

/-- Settles O34: as for encryption, with the bytes the inverse cipher gives. -/
theorem aesDecBlkDecryptsInPlace : Obligations.AesDecBlkDecryptsInPlace := by
  unfold Obligations.AesDecBlkDecryptsInPlace
  exact ⟨decode_encode .aesDecBlk, fun s =>
    ⟨_, exec_eq .aesDecBlk s, blkWrite_completes (aes128Dec_length s.keyBytes s.blkBytes) rfl⟩⟩

/-- Writing the bytes of a range back over whatever was written there restores a canonical memory (R286). -/
theorem Memory.writeBytes_restore {m : Memory} (hwf : m.wf) (base : Nat) (bs : List Byte) :
    (m.writeBytes base bs).writeBytes base (m.bytes base bs.length) = m := by
  refine Memory.ext_of_read (Memory.wf_writeBytes (Memory.wf_writeBytes hwf _ _) _ _) hwf fun a => ?_
  rw [Memory.read_writeBytes, Memory.bytes_length]
  split
  next hin => rw [Memory.bytes_getD _ _ _ _ (by omega), Nat.add_sub_cancel' hin.1]
  next hout => exact Memory.read_writeBytes_outside _ _ _ _ (by omega)

/-- Settles O35: KEY is not written, so the bytes AES_DEC_BLK writes are those AES_ENC_BLK found in BLK. -/
theorem aesEncThenDecRestoresBlk : Obligations.AesEncThenDecRestoresBlk := by
  unfold Obligations.AesEncThenDecRestoresBlk
  intro s hwf
  refine ⟨_, _, exec_eq .aesEncBlk s, exec_eq .aesDecBlk _, ?_⟩
  obtain ⟨hblk, -, hframe⟩ := blkWrite_completes (s := s) (t := commandState .aesEncBlk s)
    (aes128Enc_length s.keyBytes s.blkBytes) rfl
  have hkey : (commandState .aesEncBlk s).keyBytes = s.keyBytes :=
    Memory.bytes_congr fun i hi => hframe _ (.inl (by rw [keyBase]; omega))
  have hdec : aes128Dec (commandState .aesEncBlk s).keyBytes (commandState .aesEncBlk s).blkBytes = s.blkBytes := by
    rw [hkey, hblk]
    exact aes128Dec_aes128Enc _ (Memory.bytes_length _ _ _)
  have hmem (t : State) :
      (commandState .aesDecBlk t).mem = t.mem.writeBytes blkBase (aes128Dec t.keyBytes t.blkBytes) := rfl
  rw [hmem, hdec]
  exact Memory.writeBytes_restore hwf blkBase (aes128Enc s.keyBytes s.blkBytes)

end Sys2Proof.Machine

/-!
The checksum commands (41_checksum.md): what CK_CALC and CK_VERIFY leave, one equation per outcome, for every CK16.
-/
namespace Sys2Proof.Machine

/-! ### CK_CALC (R144) -/

theorem ckCalc_of_frameTooLong {c : Config} {s : State} (h : 512 < s.flen.toNat) :
    ckCalc c s = complete .frameLen s := if_pos h

theorem ckCalc_of_frameFits {c : Config} {s : State} (h : s.flen.toNat ≤ 512) :
    ckCalc c s = complete .ok { s with result := (c.ck16 (s.frameBytes s.flen.toNat)).setWidth 32 } :=
  if_neg (Nat.not_lt.mpr h)

/-- Settles O36: the word is the command's encoding, and FLEN decides between the two outcomes. -/
theorem ckCalcWritesChecksum : Obligations.CkCalcWritesChecksum := by
  unfold Obligations.CkCalcWritesChecksum
  refine ⟨decode_encode .ckCalc, fun s => ⟨fun hlong => ?_, fun hfits => ?_⟩⟩
  · rw [exec_eq, commandState, ckCalc_of_frameTooLong hlong]
    rfl
  · rw [exec_eq, commandState, ckCalc_of_frameFits hfits]
    rfl

/-! ### CK_VERIFY (R145) -/

theorem ckVerify_of_badLength {c : Config} {s : State} (h : s.flen.toNat < 2 ∨ 512 < s.flen.toNat) :
    ckVerify c s = complete .frameLen s := if_pos h

/-- The outcomes with an admitted length differ in bit 16 of RESULT and in the code alone. -/
theorem ckVerify_of_goodLength {c : Config} {s : State} (h2 : 2 ≤ s.flen.toNat) (h512 : s.flen.toNat ≤ 512) :
    ckVerify c s =
      if ckVerifyCalc c s = ckVerifyStored s then
        complete .ok { s with result := 0x10000 ||| (ckVerifyCalc c s).setWidth 32 }
      else complete .ckMismatch { s with result := (ckVerifyCalc c s).setWidth 32 } := by
  have hgood : ¬ (s.flen.toNat < 2 ∨ frameSize < s.flen.toNat) := by rw [frameSize]; omega
  rw [ckVerify, if_neg hgood]
  split
  next heq =>
    rw [heq, bne_self_eq_false, beq_self_eq_true]
    rfl
  next hne =>
    have hzero : flagBit false <<< 16 ||| (ckVerifyCalc c s).setWidth 32 = (ckVerifyCalc c s).setWidth 32 :=
      BitVec.zero_or
    rw [bne_iff_ne.mpr hne, beq_eq_false_iff_ne.mpr hne, hzero]
    rfl

/-- Settles O37: the word is the command's encoding, and the bytes compared are the frame's last two, low byte first. -/
theorem ckVerifyComparesTrailer : Obligations.CkVerifyComparesTrailer := by
  unfold Obligations.CkVerifyComparesTrailer
  refine ⟨decode_encode .ckVerify, fun s => ⟨fun hbad => ?_,
    fun h2 h512 (heq : ckVerifyCalc config s = ckVerifyStored s) => ?_,
    fun h2 h512 (hne : ckVerifyCalc config s ≠ ckVerifyStored s) => ?_⟩⟩
  · rw [exec_eq, commandState, ckVerify_of_badLength hbad]
    rfl
  · rw [exec_eq, commandState, ckVerify_of_goodLength h2 h512, if_pos heq]
    rfl
  · rw [exec_eq, commandState, ckVerify_of_goodLength h2 h512, if_neg hne]
    rfl

/-! ### A frame that ends with its own checksum (R142) -/

/-- Two bytes that are LE16 of a value are read back as that value. -/
theorem Memory.fromLE16_of_bytes_eq_le16 {m : Memory} {base : Nat} {v : Half} (h : m.bytes base 2 = le16 v) :
    fromLE16 (m.read base) (m.read (base + 1)) = v := by
  have hlo : m.read base = v.extractLsb' 0 8 := by
    rw [← Nat.add_zero base, ← m.bytes_getD base 2 0 (by decide), h]
    rfl
  have hhi : m.read (base + 1) = v.extractLsb' 8 8 := by
    rw [← m.bytes_getD base 2 1 (by decide), h]
    rfl
  rw [hlo, hhi, fromLE16_extract]

/-- Settles O38: the trailer read low byte first is the checksum computed, so the outcome is the matching one. -/
theorem ckVerifyAcceptsOwnChecksum : Obligations.CkVerifyAcceptsOwnChecksum := by
  unfold Obligations.CkVerifyAcceptsOwnChecksum
  intro s h2 h512 htrailer
  have hlast : frameBase + (s.flen.toNat - 1) = 0x200 + (s.flen.toNat - 2) + 1 := by rw [frameBase]; omega
  have hmatch : ckVerifyCalc config s = ckVerifyStored s := by
    rw [ckVerifyStored, hlast]
    exact (Memory.fromLE16_of_bytes_eq_le16 htrailer).symm
  refine ⟨_, exec_eq .ckVerify s, ?_⟩
  rw [commandState, ckVerify_of_goodLength h2 h512, if_pos hmatch]
  refine ⟨rfl, ?_⟩
  rw [complete_result, BitVec.getLsbD_or]
  rfl

end Sys2Proof.Machine

/-!
The envelope (42_envelope.md) from the sender's side: the length law of the packing, the bytes that ENV_ENCRYPT leaves
in FRAME, and its registers.
-/
namespace Sys2Proof.Machine

/-! ### Packing (R162, R173) -/

/-- The packing fills the last 16-byte block (R162, R180). -/
theorem packingLen_fills (l : Nat) : (7 + l + packingLen l) % 16 = 0 := by
  rw [packingLen]
  omega

theorem packingLen_le_of_fills {l p : Nat} (h : (7 + l + p) % 16 = 0) : packingLen l ≤ p := by
  rw [packingLen]
  omega

/-- The encrypted part of an envelope is whole blocks (R180). -/
theorem sixteen_mul_blocks (l : Nat) : 16 * ((7 + l + packingLen l) / 16) = 7 + l + packingLen l :=
  Nat.mul_div_cancel' (Nat.dvd_of_mod_eq_zero (packingLen_fills l))

/-- Settles O39, from the remainder that `packingLen` is computed from. -/
theorem packingLenIsSmallestPad : Obligations.PackingLenIsSmallestPad := by
  unfold Obligations.PackingLenIsSmallestPad
  exact ⟨fun l p => ⟨packingLen_fills l, Nat.le_of_lt_succ (packingLen_lt l), packingLen_le_of_fills⟩, rfl, rfl, rfl, rfl⟩

/-- Settles O40: the word is the command's encoding, and the command is the stated update. -/
theorem packingLenCommandWritesResult : Obligations.PackingLenCommandWritesResult := by
  unfold Obligations.PackingLenCommandWritesResult
  exact ⟨decode_encode .packingLen, exec_eq .packingLen⟩

/-! ### Ranges of bytes inside ranges -/

/-- Part of a range is a range. -/
theorem Memory.take_drop_bytes (m : Memory) (base : Nat) {n i k : Nat} (h : i + k ≤ n) :
    ((m.bytes base n).drop i).take k = m.bytes (base + i) k := by
  refine List.ext_getElem (by simp; omega) fun j _ _ => ?_
  simp [Memory.bytes, Nat.add_assoc]

/-- Reading back part of the range just written. -/
theorem Memory.bytes_writeBytes_part (m : Memory) (base : Nat) {bs : List Byte} {i k : Nat} (h : i + k ≤ bs.length) :
    (m.writeBytes base bs).bytes (base + i) k = (bs.drop i).take k := by
  rw [← Memory.take_drop_bytes _ _ h, Memory.bytes_writeBytes]

/-- A range is a first part and the rest. -/
theorem Memory.bytes_add (m : Memory) (base j k : Nat) :
    m.bytes base (j + k) = m.bytes base j ++ m.bytes (base + j) k := by
  simp [Memory.bytes, List.range_add, Nat.add_assoc]

/-- Part of a list, read with default 0. -/
theorem getD_take_drop (bs : List Byte) (i : Nat) {k j : Nat} (h : j < k) :
    ((bs.drop i).take k).getD j 0 = bs.getD (i + j) 0 := by
  simp [List.getD_eq_getElem?_getD, List.getElem?_take_of_lt h]

/-- Zeros after a list change nothing that is read from it with default 0. -/
theorem getD_append_zeros (bs : List Byte) (n i : Nat) : (bs ++ zeros n).getD i 0 = bs.getD i 0 := by
  by_cases h : i < bs.length
  · exact List.getD_append _ _ _ _ h
  · have hle : bs.length ≤ i := Nat.le_of_not_lt h
    rw [List.getD_append_right _ _ _ _ hle, List.getD_eq_default _ _ hle, zeros, List.getD_eq_getElem?_getD,
      List.getElem?_getD_replicate_default_eq]

/-! ### Windows filled up with zeros (R38, R174, R176) -/

/-- A byte of a window that was filled with a list and zeros after it. -/
theorem Memory.read_writeBytes_zeros (m : Memory) (base : Nat) (bs : List Byte) {n i : Nat} (h : i < bs.length + n) :
    (m.writeBytes base (bs ++ zeros n)).read (base + i) = bs.getD i 0 := by
  have hin : base ≤ base + i ∧ base + i < base + (bs ++ zeros n).length := by
    rw [List.length_append, zeros_length]
    omega
  rw [Memory.read_writeBytes, if_pos hin, Nat.add_sub_cancel_left, getD_append_zeros]

/-- A range of a window that was filled with a list and zeros after it, inside the list. -/
theorem Memory.bytes_writeBytes_zeros (m : Memory) (base n : Nat) {bs : List Byte} {i k : Nat} (h : i + k ≤ bs.length) :
    (m.writeBytes base (bs ++ zeros n)).bytes (base + i) k = (bs.drop i).take k := by
  rw [Memory.bytes_writeBytes_part _ _ (by simp; omega), List.drop_append_of_le_length (by omega),
    List.take_append_of_le_length (by simp; omega)]

/-! ### ENV_ENCRYPT: the frame (R164, R174) -/

theorem envEncrypt_of_tooLong {c : Config} {s : State} (h : c.med.val < s.dlen.toNat) :
    envEncrypt c s = complete .dataLen { s with errinfo := errInfoWord c.med.val s.dlen } := if_pos h

theorem envEncrypt_of_fits {c : Config} {s : State} (h : s.dlen.toNat ≤ c.med.val) :
    envEncrypt c s = complete .ok
      { s with
        mem := s.mem.writeBytes frameBase (frameImage (sealEnvelope s.keyBytes (encryptEnvelope c s)))
        flen := BitVec.ofNat 16 (8 + s.dlen.toNat + packingLen s.dlen.toNat)
        result := BitVec.ofNat 32 (packingLen s.dlen.toNat)
        ecount := 0
        seq := s.seq + 1
        entropyDraws := s.entropyDraws + padDraws s (packingLen s.dlen.toNat) } := if_neg (Nat.not_lt.mpr h)

theorem errInfoWord_eq (max : Nat) (actual : Half) :
    errInfoWord max actual = BitVec.ofNat 32 (max * 65536 + actual.toNat) := by
  have hor : max <<< 16 ||| actual.toNat = max * 65536 + actual.toNat := by
    rw [← Nat.shiftLeft_add_eq_or_of_lt actual.isLt, Nat.shiftLeft_eq]
  rw [errInfoWord, ← hor, BitVec.ofNat_or]
  apply BitVec.eq_of_toNat_eq
  simp [Nat.shiftLeft_eq]

/-- The frame of an envelope that is a marker and whole blocks is as long as the envelope. -/
theorem sealEnvelope_length_of_blocks (key : List Byte) {env : List Byte} {nb : Nat} (h : env.length = 1 + 16 * nb) :
    (sealEnvelope key env).length = env.length := by
  rw [sealEnvelope_length]
  omega

theorem sealEnvelope_of_blocks (key : List Byte) {env : List Byte} {nb : Nat} (h : env.length = 1 + 16 * nb) :
    sealEnvelope key env = env.take 1 ++ ecbEnc key nb (env.drop 1) := by
  have hnb : (env.length - 1) / 16 = nb := by omega
  rw [sealEnvelope, hnb]

/-- Each block of the frame after the marker is that block of the envelope, encrypted. -/
theorem sealEnvelope_block (key : List Byte) {env : List Byte} {nb k : Nat} (h : env.length = 1 + 16 * nb)
    (hk : k < nb) :
    ((sealEnvelope key env).drop (1 + 16 * k)).take 16 = aes128Enc key ((env.drop (1 + 16 * k)).take 16) := by
  have hone : (env.take 1).length = 1 := by simp; omega
  rw [sealEnvelope_of_blocks key h, ← List.drop_drop, List.drop_left' hone, ecbEnc,
    ecbMap_block (aes128Enc_length key) hk, List.drop_drop]

theorem encryptEnvelope_blocks (c : Config) (s : State) :
    (encryptEnvelope c s).length = 1 + 16 * ((7 + s.dlen.toNat + packingLen s.dlen.toNat) / 16) := by
  rw [encryptEnvelope_length, sixteen_mul_blocks]
  omega

/-- The frame ENV_ENCRYPT stores. -/
def encryptedFrame (c : Config) (s : State) : List Byte := sealEnvelope s.keyBytes (encryptEnvelope c s)

theorem encryptedFrame_length (c : Config) (s : State) :
    (encryptedFrame c s).length = 8 + s.dlen.toNat + packingLen s.dlen.toNat := by
  rw [encryptedFrame, sealEnvelope_length_of_blocks _ (encryptEnvelope_blocks c s), encryptEnvelope_length]

section
variable {c : Config} {s : State} (hfits : s.dlen.toNat ≤ c.med.val)
include hfits

theorem envEncrypt_mem :
    (envEncrypt c s).mem = s.mem.writeBytes frameBase (frameImage (encryptedFrame c s)) := by
  rw [envEncrypt_of_fits hfits]
  rfl

theorem envEncrypt_err : (envEncrypt c s).err = 0 := by
  rw [envEncrypt_of_fits hfits]
  rfl

theorem envEncrypt_flen : (envEncrypt c s).flen.toNat = 8 + s.dlen.toNat + packingLen s.dlen.toNat := by
  have hmed := c.med.isLt
  have hpad := packingLen_lt s.dlen.toNat
  rw [envEncrypt_of_fits hfits]
  exact Nat.mod_eq_of_lt (by omega)

theorem envEncrypt_read_frame {i : Nat} (hi : i < 512) :
    (envEncrypt c s).mem.read (frameBase + i) = (encryptedFrame c s).getD i 0 := by
  have hfill := frameImage_length (sealedFrame_length_le c s hfits)
  rw [frameImage, List.length_append, zeros_length] at hfill
  rw [envEncrypt_mem hfits]
  exact Memory.read_writeBytes_zeros _ _ _ (hi.trans_eq hfill.symm)

theorem envEncrypt_bytes_frame {i k : Nat} (h : i + k ≤ 8 + s.dlen.toNat + packingLen s.dlen.toNat) :
    (envEncrypt c s).mem.bytes (frameBase + i) k = ((encryptedFrame c s).drop i).take k := by
  rw [envEncrypt_mem hfits]
  exact Memory.bytes_writeBytes_zeros _ _ _ (by rwa [encryptedFrame_length])

theorem envEncrypt_frameBytes : (envEncrypt c s).frameBytes (envEncrypt c s).flen.toNat = encryptedFrame c s := by
  have hall := envEncrypt_bytes_frame hfits (i := 0) (Nat.zero_add _).le
  rwa [← encryptedFrame_length c, List.drop_zero, List.take_length, encryptedFrame_length, ← envEncrypt_flen hfits]
    at hall

theorem envEncrypt_read_outside {a : Nat} (ha : a < 0x200 ∨ 0x400 ≤ a) :
    (envEncrypt c s).mem.read a = s.mem.read a := by
  rw [envEncrypt_mem hfits]
  refine Memory.read_writeBytes_outside _ _ _ _ ?_
  rwa [encryptedFrame, frameImage_length (sealedFrame_length_le c s hfits)]

end

/-! ### ENV_ENCRYPT: the pad (R170, R171) -/

theorem padDraws_add (s : State) (p : Nat) :
    s.entropyDraws + padDraws s p = if s.padMode = .entropy then s.entropyDraws + p else s.entropyDraws := by
  rw [padDraws]
  split <;> rfl

section
variable {c : Config} {s : State} {data : List Byte} {l : Nat} (hl : data.length = l)
include hl

theorem padBytes_of_zero (h : s.padMode = .zero) : padBytes c s data = zeros (packingLen l) := by
  rw [padBytes, h, hl]

theorem padBytes_of_entropy (h : s.padMode = .entropy) :
    padBytes c s data = entropyBytes c s.entropyDraws (packingLen l) := by
  rw [padBytes, h, hl]

theorem padBytes_of_deterministic (h : s.padMode = .deterministic) :
    padBytes c s data =
      (c.padDet (c.startMarker :: BitVec.ofNat 8 l :: (le32 s.ecount ++ data ++ zeros (packingLen l) ++ zeros 2))
        (le32 s.seq) (packingLen l)).toList := by
  subst hl
  rw [padBytes, h]
  rfl

end

/-! ### ENV_ENCRYPT: the obligations -/

/-- Settles O41: the bytes of FRAME from the image written there, the registers from the command's own update. -/
theorem envEncryptBuildsFrame : Obligations.EnvEncryptBuildsFrame := by
  unfold Obligations.EnvEncryptBuildsFrame
  refine ⟨decode_encode .envEncrypt, fun s => ⟨fun hlong => ?_, fun hfits => ?_⟩⟩
  · rw [exec_eq, commandState, envEncrypt_of_tooLong hlong, errInfoWord_eq]
    rfl
  · have hdata := dataBytes_length s s.dlen.toNat
    have hblocks := encryptEnvelope_blocks config s
    have hlen := encryptEnvelope_length config s
    refine ⟨_, padBytes config s (s.dataBytes s.dlen.toNat), _, encryptEnvelope config s, exec_eq .envEncrypt s,
      ?length, padBytes_of_zero hdata, padBytes_of_entropy hdata, padBytes_of_deterministic hdata, rfl, ?env, hlen,
      envEncrypt_read_frame hfits (i := 0) (by decide), fun k hk => ?block, fun a hlo hhi => ?past,
      fun a => envEncrypt_read_outside hfits, ?state⟩
    case length =>
      rw [padBytes_length, hdata]
      rfl
    case env =>
      rw [encryptEnvelope, envelope, envelopeBody, hdata]
      rfl
    case block =>
      have hk : k < (7 + s.dlen.toNat + packingLen s.dlen.toNat) / 16 := by
        simp only [packingLen]; omega
      have h16 := sixteen_mul_blocks s.dlen.toNat
      have hoff : 0x201 + 16 * k = frameBase + (1 + 16 * k) := by rw [frameBase]; omega
      rw [hoff]
      exact (envEncrypt_bytes_frame hfits (by omega)).trans (sealEnvelope_block _ hblocks hk)
    case past =>
      obtain ⟨i, rfl⟩ := Nat.exists_eq_add_of_le (Nat.le_of_add_right_le hlo)
      refine (envEncrypt_read_frame hfits (by omega)).trans (List.getD_eq_default _ _ ?_)
      rw [encryptedFrame_length]
      simp only [packingLen]; omega
    case state =>
      rw [commandState, envEncrypt_of_fits hfits, padDraws_add]
      rfl

/-- Settles O42: the length left in FLEN is 1 plus the whole blocks, and a data length is at most 255. -/
theorem envEncryptFrameIsBlockAligned : Obligations.EnvEncryptFrameIsBlockAligned := by
  unfold Obligations.EnvEncryptFrameIsBlockAligned
  intro s hfits
  have hfills := packingLen_fills s.dlen.toNat
  have hpad := packingLen_lt s.dlen.toNat
  have hmed := config.med.isLt
  have hflen := envEncrypt_flen hfits
  exact ⟨hfills, _, exec_eq .envEncrypt s, envEncrypt_err hfits, by rw [commandState]; omega,
    by rw [commandState]; omega, by rw [commandState]; omega⟩

end Sys2Proof.Machine

/-!
The envelope (42_envelope.md) from the receiver's side: what ENV_DECRYPT reconstructs from any frame, what it reads in
an envelope, and the round trip.
-/
namespace Sys2Proof.Machine

/-! ### ENV_DECRYPT: what it reconstructs (R176) -/

theorem openFrame_length (s : State) : (openFrame s).length = 1 + 16 * frameBlocks s.flen.toNat := by
  rw [openFrame, ecbDec, List.length_append, ecbMap_length (aes128Dec_length s.keyBytes), State.frameBytes,
    Memory.bytes_length]

/-- Each whole block of the frame after the marker is decrypted alone. -/
theorem openFrame_block (s : State) {k : Nat} (hk : k < frameBlocks s.flen.toNat) :
    ((openFrame s).drop (1 + 16 * k)).take 16 = aes128Dec s.keyBytes (s.mem.bytes (0x201 + 16 * k) 16) := by
  have hone : (s.frameBytes 1).length = 1 := Memory.bytes_length _ _ _
  rw [openFrame, ← List.drop_drop, List.drop_left' hone, ecbDec, ecbMap_block (aes128Dec_length s.keyBytes) hk,
    Memory.take_drop_bytes _ _ (by omega)]
  rfl

theorem envData_getD (env : List Byte) (i : Nat) :
    (envData env).getD i 0 = if i < envLength env then envByte env (6 + i) else 0 := by
  split
  next hlt => simp [envData, envBytes, List.getD_eq_getElem?_getD, hlt]
  next hge => exact List.getD_eq_default _ _ (by rw [envData_length]; omega)

theorem badFrame_or_badLength_iff (f : Nat) (env : List Byte) :
    (badFrame f || badLength env (frameBlocks f)) = true ↔
      f < 17 ∨ 512 < f ∨ (f - 1) % 16 ≠ 0 ∨ 7 + envLength env + packingLen (envLength env) ≠ 16 * frameBlocks f := by
  rw [Bool.or_eq_true, badFrame, badLength, decide_eq_true_iff, decide_eq_true_iff, or_assoc, or_assoc, frameSize]

/-- FRAME_LEN wins over CK_MISMATCH (R176, R251). -/
theorem decryptCode_bits (c : Config) (f : Nat) (env : List Byte) :
    (decryptCode c f env).bits =
      if f < 17 ∨ 512 < f ∨ (f - 1) % 16 ≠ 0 ∨ 7 + envLength env + packingLen (envLength env) ≠ 16 * frameBlocks f
      then 3 else if envCalc c env ≠ envStored env then 4 else 0 := by
  simp only [← badFrame_or_badLength_iff]
  simp only [← bne_iff_ne, decryptCode]
  cases badFrame f || badLength env (frameBlocks f) <;> cases envCalc c env != envStored env <;> rfl

/-- The stored checksum is the two bytes after the packing, low byte first. -/
theorem envStored_eq (env : List Byte) :
    envStored env = envByte env (7 + envLength env + packingLen (envLength env)) ++
      envByte env (6 + envLength env + packingLen (envLength env)) := by
  have hnext : 6 + envLength env + packingLen (envLength env) + 1 =
      7 + envLength env + packingLen (envLength env) := by omega
  rw [envStored, envChecksumAt, hnext, fromLE16]

/-- The DATA window after ENV_DECRYPT: the data, then zeros. -/
theorem envDecrypt_read_data (c : Config) (s : State) {i : Nat} (hi : i < 256) :
    (envDecrypt c s).mem.read (dataBase + i) =
      if i < envLength (openFrame s) then envByte (openFrame s) (6 + i) else 0 := by
  have hfill := dataImage_envData_length (openFrame s)
  rw [dataImage, List.length_append, zeros_length] at hfill
  rw [← envData_getD]
  exact Memory.read_writeBytes_zeros _ _ _ (hi.trans_eq hfill.symm)

theorem envDecrypt_dataBytes (c : Config) (s : State) :
    (envDecrypt c s).dataBytes (envLength (openFrame s)) = envData (openFrame s) := by
  have hall := Memory.bytes_writeBytes_zeros s.mem dataBase (dataSize - (envData (openFrame s)).length) (i := 0)
    (Nat.zero_add (envData (openFrame s)).length).le
  rw [List.drop_zero, List.take_length] at hall
  rw [← envData_length (openFrame s)]
  exact hall

theorem envDecrypt_read_outside (c : Config) (s : State) {a : Nat} (ha : a < 0x100 ∨ 0x200 ≤ a) :
    (envDecrypt c s).mem.read a = s.mem.read a :=
  Memory.read_writeBytes_outside _ _ _ _ (by rwa [dataImage_envData_length])

/-- Settles O43: `byte` is the plaintext read with default 0, block by block; the writes are those of the command, and
the code is decided by the two checks. -/
theorem envDecryptReconstructs : Obligations.EnvDecryptReconstructs := by
  unfold Obligations.EnvDecryptReconstructs
  refine ⟨decode_encode .envDecrypt, fun s => ⟨_, envByte (openFrame s), exec_eq .envDecrypt s, rfl,
    fun k hk j hj => ?block, fun i hi => List.getD_eq_default _ _ ((openFrame_length s).trans_le hi),
    fun i => envDecrypt_read_data config s, fun a => envDecrypt_read_outside config s, ?state⟩⟩
  case block => rw [envByte, ← getD_take_drop _ _ hj, openFrame_block s hk]
  case state =>
    have hcode := decryptCode_bits config s.flen.toNat (openFrame s)
    rw [envStored_eq] at hcode
    rw [commandState, envDecrypt, decryptWrites, complete, hcode, envStored_eq]
    rfl

/-! ### The envelope read back (R160, R165) -/

/-- Bytes that an envelope has are its own. -/
theorem envBytes_eq_take_drop {env : List Byte} {lo hi : Nat} (h : hi ≤ env.length) :
    envBytes env lo hi = (env.drop lo).take (hi - lo) := by
  refine List.ext_getElem (by simp [envBytes]; omega) fun i h1 _ => ?_
  have hi : lo + i < env.length := by simp [envBytes] at h1; omega
  simp [envBytes, envByte, hi]

/-- The checksum field starts where the body ends. -/
theorem envelopeBody_length (c : Config) (count : Word) (data pad : List Byte) :
    (envelopeBody c count data pad).length = 6 + data.length + pad.length := by
  simp only [envelopeBody, List.length_cons, List.length_append, le32_length]
  omega

theorem envCount_envelope (c : Config) (count : Word) (data pad : List Byte) :
    envCount (envelope c count data pad) = count := leWord_extract count

section
variable {c : Config} {count : Word} {data pad : List Byte} (hdata : data.length < 256)
include hdata

theorem envLength_envelope : envLength (envelope c count data pad) = data.length :=
  (BitVec.toNat_ofNat _ _).trans (Nat.mod_eq_of_lt hdata)

theorem envData_envelope : envData (envelope c count data pad) = data := by
  have hdrop : (envelope c count data pad).drop 6 =
      data ++ (pad ++ le16 (envelopeChecksum c (envelopeBody c count data pad))) := by
    simp [envelope, envelopeBody, le32]
  rw [envData, envBytes_eq_take_drop (by rw [envLength_envelope hdata, envelope_length]; omega), hdrop,
    envLength_envelope hdata, Nat.add_sub_cancel_left, List.take_left']
  rfl

variable (hpad : pad.length = packingLen data.length)
include hpad

theorem envChecksumAt_envelope :
    envChecksumAt (envelope c count data pad) = (envelopeBody c count data pad).length := by
  rw [envChecksumAt, envLength_envelope hdata, envelopeBody_length, hpad]

theorem envStored_envelope :
    envStored (envelope c count data pad) = envelopeChecksum c (envelopeBody c count data pad) := by
  rw [envStored, envChecksumAt_envelope hdata hpad, envelope]
  generalize envelopeBody c count data pad = body
  simp [envByte, le16]

theorem envCalc_envelope :
    envCalc c (envelope c count data pad) = envelopeChecksum c (envelopeBody c count data pad) := by
  have hstart : c.ckEnvStart.val ≤ (envelopeBody c count data pad).length := by
    have := c.ckEnvStart.isLt
    rw [envelopeBody_length]
    omega
  rw [envCalc, envChecksumAt_envelope hdata hpad, envelopeChecksum]
  rw [envBytes_eq_take_drop (by simp [envelope]), envelope, List.drop_append_of_le_length hstart,
    List.take_left' List.length_drop]

/-- A frame of the envelope's length passes both checks. -/
theorem decryptCode_bits_envelope :
    (decryptCode c (8 + data.length + pad.length) (envelope c count data pad)).bits = 0 := by
  have hfills := packingLen_fills data.length
  have hlt := packingLen_lt data.length
  rw [decryptCode_bits, envLength_envelope hdata, envCalc_envelope hdata hpad, envStored_envelope hdata hpad,
    frameBlocks, frameSize, if_neg (by omega), if_neg (not_not.mpr rfl)]

/-- ENV_DECRYPT of an envelope gives back its data and count, with no error. -/
theorem envDecrypt_of_envelope {s : State} (hflen : s.flen.toNat = 8 + data.length + pad.length)
    (hopen : openFrame s = envelope c count data pad) :
    (envDecrypt c s).err = 0 ∧ (envDecrypt c s).dlen = BitVec.ofNat 16 data.length ∧
      (envDecrypt c s).dataBytes data.length = data ∧
      (∀ i, data.length ≤ i → i < 256 → (envDecrypt c s).mem.read (0x100 + i) = 0) ∧
      (envDecrypt c s).dcount = count := by
  have hlength : envLength (openFrame s) = data.length := by rw [hopen, envLength_envelope hdata]
  refine ⟨?err, ?dlen, ?data, fun i hi h256 => ?past, ?dcount⟩
  case err =>
    rw [envDecrypt, complete_err, hflen, hopen, decryptCode_bits_envelope hdata hpad]
  case dlen =>
    rw [← hlength]
    rfl
  case data =>
    have hbytes := envDecrypt_dataBytes c s
    rwa [hlength, hopen, envData_envelope hdata] at hbytes
  case past => exact (envDecrypt_read_data c s h256).trans (if_neg (by omega))
  case dcount =>
    rw [← envCount_envelope c count data pad, ← hopen]
    rfl

end

/-! ### The round trip (R179) -/

theorem ecbDec_ecbEnc (key : List Byte) {nb : Nat} {x : List Byte} (h : x.length = 16 * nb) :
    ecbDec key nb (ecbEnc key nb x) = x := by
  induction nb generalizing x with
  | zero => exact (List.eq_nil_of_length_eq_zero h).symm
  | succ nb ih =>
    have htake : (x.take 16).length = 16 := by simp; omega
    have hdrop : (x.drop 16).length = 16 * nb := by simp; omega
    have htail := ih hdrop
    rw [ecbDec, ecbEnc] at htail ⊢
    rw [ecbMap, ecbMap, List.take_left' (aes128Enc_length _ _), List.drop_left' (aes128Enc_length _ _),
      aes128Dec_aes128Enc key htake, htail, List.take_append_drop]

/-- ENV_DECRYPT of a frame that holds a sealed envelope has that envelope as its plaintext. -/
theorem openFrame_of_sealed {s : State} {env : List Byte} {nb : Nat} (hlen : env.length = 1 + 16 * nb)
    (hfits : env.length ≤ 512) (hflen : s.flen.toNat = env.length)
    (hframe : s.frameBytes env.length = sealEnvelope s.keyBytes env) : openFrame s = env := by
  have hnb : frameBlocks s.flen.toNat = nb := by
    rw [frameBlocks, frameSize]
    omega
  rw [sealEnvelope_of_blocks _ hlen, hlen, State.frameBytes, Memory.bytes_add] at hframe
  obtain ⟨hmarker, hblocks⟩ := List.append_inj hframe (by simp; omega)
  rw [openFrame, hnb, State.frameBytes, hmarker, hblocks, ecbDec_ecbEnc _ (by simp; omega), List.take_append_drop]

theorem openFrame_of_envEncrypt {c : Config} {s s' : State} (hfits : s.dlen.toNat ≤ c.med.val)
    (hkey : s'.keyBytes = s.keyBytes) (hflen : s'.flen = (envEncrypt c s).flen)
    (hframe : s'.frameBytes (envEncrypt c s).flen.toNat =
      (envEncrypt c s).frameBytes (envEncrypt c s).flen.toNat) :
    openFrame s' = encryptEnvelope c s := by
  have hlen : (envEncrypt c s).flen.toNat = (encryptEnvelope c s).length := by
    rw [envEncrypt_flen hfits, encryptEnvelope_length]
  have hmed := c.med.isLt
  have hpad := packingLen_lt s.dlen.toNat
  rw [envEncrypt_frameBytes hfits, encryptedFrame, hlen, ← hkey] at hframe
  refine openFrame_of_sealed (encryptEnvelope_blocks c s) ?_ (hflen ▸ hlen) hframe
  rw [encryptEnvelope_length]
  omega

/-- Settles O44: the plaintext found is the envelope sealed, whose fields are the data and the count. -/
theorem envelopeRoundTrip : Obligations.EnvelopeRoundTrip := by
  unfold Obligations.EnvelopeRoundTrip
  intro s hfits
  refine ⟨_, exec_eq .envEncrypt s, envEncrypt_err hfits, fun s' hkey hflen hframe => ⟨_, exec_eq .envDecrypt s', ?_⟩⟩
  have hdata := dataBytes_length s s.dlen.toNat
  have hpad := padBytes_length config s (s.dataBytes s.dlen.toNat)
  have hmed := config.med.isLt
  have hlen : s'.flen.toNat = 8 + (s.dataBytes s.dlen.toNat).length +
      (padBytes config s (s.dataBytes s.dlen.toNat)).length := by
    rw [hflen, hpad, hdata]
    exact envEncrypt_flen hfits
  have hback := envDecrypt_of_envelope (by omega) hpad hlen (openFrame_of_envEncrypt hfits hkey hflen hframe)
  rwa [hdata, BitVec.ofNat_toNat, BitVec.setWidth_eq] at hback

end Sys2Proof.Machine

/-!
SEQ as a rule of the whole machine (42_envelope.md R181).
-/
namespace Sys2Proof.Machine

theorem commandState_seq (i : Instr) (s : State) :
    (commandState i s).seq = s.seq ∨
      ((commandState i s).seq = s.seq + 1 ∧
        ((i = .envEncrypt ∧ s.dlen.toNat ≤ config.med.val) ∨ i = .envDecrypt)) := by
  cases i with
  | envEncrypt =>
    by_cases hfits : s.dlen.toNat ≤ config.med.val
    · exact .inr ⟨by rw [commandState, envEncrypt_of_fits hfits]; rfl, .inl ⟨rfl, hfits⟩⟩
    · exact .inl (by rw [commandState, envEncrypt_of_tooLong (Nat.lt_of_not_le hfits)]; rfl)
  | envDecrypt => exact .inr ⟨rfl, .inr rfl⟩
  | _ => exact .inl ((commandState_changesOnlyWriteSet _ s).seq (by decide))

theorem engineTurn_seq {s t : State} (h : engineTurn s = .next t) :
    t.seq = s.seq ∨
      (t.seq = s.seq + 1 ∧
        ((s.pending = some (encode .envEncrypt) ∧ s.dlen.toNat ≤ config.med.val) ∨
          s.pending = some (encode .envDecrypt))) := by
  obtain ⟨-, rfl⟩ | ⟨w, i, hp, hd, rfl⟩ | ⟨-, rfl⟩ := engineTurn_next_cases h
  · exact .inl rfl
  · obtain rfl := eq_encode_of_decode hd
    obtain hkeep | ⟨hadv, ⟨rfl, hfits⟩ | rfl⟩ := commandState_seq i s
    · exact .inl hkeep
    · exact .inr ⟨hadv, .inl ⟨hp, hfits⟩⟩
    · exact .inr ⟨hadv, .inr hp⟩
  · exact .inl rfl

theorem idleWrite_seq (c : Config) (off : Nat) (v : Word) (s : State) :
    (idleWrite c off v s).seq = if regAt off = .seq then v else s.seq := by
  unfold idleWrite
  cases regAt off <;> rfl

theorem offset_of_regAt_eq_seq {off : Nat} (h4 : off % 4 = 0) (h : regAt off = .seq) : off = 0x00C := by
  obtain hlow | hwindow | hzero | hid : off < 0x030 ∨ ((0x050 ≤ off ∧ off < 0x060) ∨ (0x100 ≤ off ∧ off < 0x400)) ∨
      ((0x030 ≤ off ∧ off < 0x050) ∨ (0x060 ≤ off ∧ off < 0x080) ∨ (0x084 ≤ off ∧ off < 0x100) ∨ 0x400 ≤ off) ∨
      (0x080 ≤ off ∧ off < 0x100) := by omega
  · obtain ⟨k, hk, rfl⟩ : ∃ k, k < 12 ∧ off = 4 * k := ⟨off / 4, by omega, by omega⟩
    revert k
    decide
  · exact absurd (h ▸ regAt_mem_windows hwindow) (by decide)
  · exact absurd (h ▸ regAt_mem_zeroReading hzero) (by decide)
  · exact absurd (h ▸ regAt_mem_readOnly (.inr (.inr (.inl hid)))) (by decide)

/-- Settles O45, from what each kind of step does to SEQ. -/
theorem seqChangesOnlyAsStated : Obligations.SeqChangesOnlyAsStated := by
  unfold Obligations.SeqChangesOnlyAsStated
  intro s t h
  obtain ⟨hnext, hturn⟩ | ⟨off, -, -, -, rfl⟩ | ⟨off, v, hhead, h4, -, rfl⟩ | ⟨hhead, rfl⟩ | ⟨-, rfl⟩ := step_cases h
  · exact (engineTurn_seq hturn).imp_right fun hadv => .inl ⟨hnext, hadv⟩
  · rw [busRead_frame]
    exact .inl rfl
  · obtain ⟨hidle, ht⟩ | ⟨-, ht⟩ := busWrite_eq config off v (withAgenda s.agenda.tail s) <;> rw [ht]
    · rw [idleWrite_seq]
      split
      · obtain rfl := offset_of_regAt_eq_seq h4 ‹_›
        exact .inr (.inr (.inl ⟨v, hidle, hhead, rfl⟩))
      · exact .inl rfl
    · rw [busyWrite_frame]
      exact .inl rfl
  · exact .inr (.inr (.inr ⟨hhead, rfl⟩))
  · exact .inl rfl

end Sys2Proof.Machine

/-!
The arithmetic of the prime unit (43_prime.md R214, R219, R220): modular powers, the odd part of n - 1, and what a
Miller–Rabin round decides.
-/
namespace Sys2Proof.Machine

/-! ### Modular powers (R214) -/

/-- Square and multiply over k bits is exact for every exponent of k bits. -/
theorem powModBits_eq {k e : Nat} (he : e < 2 ^ k) (a n : Nat) : powModBits k a e n = a ^ e % n := by
  induction k generalizing a e with
  | zero =>
    obtain rfl : e = 0 := by omega
    rfl
  | succ k ih =>
    have hsquare : powModBits k (a * a % n) (e / 2) n = a ^ (2 * (e / 2)) % n := by
      rw [ih (by omega), ← Nat.pow_mod, ← sq, ← pow_mul]
    unfold powModBits
    split_ifs with h0 hodd
    · rw [h0, pow_zero]
    · rw [hsquare, Nat.mul_mod_mod, ← pow_succ', show 2 * (e / 2) + 1 = e by omega]
    · rw [hsquare, show 2 * (e / 2) = e by omega]

theorem powMod_eq {e : Nat} (he : e < 2 ^ 64) (a n : Nat) : powMod a e n = a ^ e % n := by
  rw [powMod, powModBits_eq he, ← Nat.pow_mod]

/-- Settles O48, by induction on the exponent's bits. -/
theorem powModIsExact : Obligations.PowModIsExact := by
  unfold Obligations.PowModIsExact
  exact fun a _ n he => powMod_eq he a n

theorem fermatPasses_iff {n : Nat} (hn : n ≤ 2 ^ 64) (a : Nat) : fermatPasses n a = true ↔ a ^ (n - 1) % n = 1 := by
  rw [fermatPasses, powMod_eq (by omega), beq_iff_eq]

/-! ### The Miller–Rabin round (R219, R220) -/

/-- The odd part and the power of two are the only ones there are. -/
theorem oddPart_mul_two_pow {k d s : Nat} (hd : d % 2 = 1) (h : d * 2 ^ s < 2 ^ k) :
    oddPart k (d * 2 ^ s) = (d, s) := by
  induction k generalizing s with
  | zero =>
    have : 0 < d * 2 ^ s := Nat.mul_pos (by omega) (Nat.two_pow_pos s)
    omega
  | succ k ih =>
    cases s with
    | zero => rw [oddPart, pow_zero, mul_one, if_neg (by omega)]
    | succ s =>
      have hdouble : d * 2 ^ (s + 1) = 2 * (d * 2 ^ s) := by ring
      rw [hdouble] at h ⊢
      rw [oddPart, if_pos (Nat.mul_mod_right 2 _), Nat.mul_div_cancel_left _ (by decide), ih (by omega)]

/-- The squarings pass exactly if one of them gives n - 1: none can follow a 1. -/
theorem mrSquarings_iff {n : Nat} (hn : 3 ≤ n) (k x : Nat) :
    mrSquarings n k x = true ↔ ∃ r < k, x ^ 2 ^ (r + 1) % n = n - 1 := by
  have hstep (x r : Nat) : x ^ 2 ^ (r + 1) % n = (x * x % n) ^ 2 ^ r % n := by
    rw [← Nat.pow_mod, ← sq, ← pow_mul, pow_succ']
  induction k generalizing x with
  | zero => simp [mrSquarings]
  | succ k ih =>
    unfold mrSquarings
    split_ifs with hminus hone
    · exact iff_of_true rfl ⟨0, k.succ_pos, by rw [hstep, pow_zero, pow_one, Nat.mod_mod, hminus]⟩
    · refine iff_of_false not_false ?_
      rintro ⟨r, -, hr⟩
      rw [hstep, hone, one_pow, Nat.mod_eq_of_lt (by omega)] at hr
      omega
    · refine (ih _).trans ?_
      rw [Nat.exists_lt_succ_left]
      simp only [hstep x, pow_zero, pow_one, Nat.mod_mod, hminus, false_or]

/-- A base is no witness of compositeness for n, with `n - 1 = d * 2^s`. -/
def NonWitness (n a d s : Nat) : Prop := a ^ d % n = 1 ∨ ∃ r < s, a ^ (d * 2 ^ r) % n = n - 1

theorem mrPasses_iff {n d s : Nat} (hn : 3 ≤ n) (hodd : n % 2 = 1) (hlt : n < 2 ^ 64) (hd : d % 2 = 1)
    (hds : n - 1 = d * 2 ^ s) (a : Nat) : mrPasses n a = true ↔ NonWitness n a d s := by
  have hpart : oddPart 64 (n - 1) = (d, s) := by
    rw [hds]
    exact oddPart_mul_two_pow hd (by omega)
  obtain ⟨s, rfl⟩ : ∃ s', s = s' + 1 := by
    refine Nat.exists_eq_succ_of_ne_zero ?_
    rintro rfl
    omega
  have hdlt : d < 2 ^ 64 := by
    have := Nat.le_mul_of_pos_right d (Nat.two_pow_pos (s + 1))
    omega
  have hpow (r : Nat) : (a ^ d % n) ^ 2 ^ r % n = a ^ (d * 2 ^ r) % n := by rw [← Nat.pow_mod, ← pow_mul]
  simp only [mrPasses, hpart, powMod_eq hdlt, Bool.or_eq_true, beq_iff_eq, mrSquarings_iff hn, hpow, NonWitness,
    Nat.exists_lt_succ_left, pow_zero, mul_one, Nat.add_sub_cancel, or_assoc]

/-- Every positive number is odd times a power of two. -/
theorem exists_odd_mul_two_pow {m : Nat} (hm : m ≠ 0) : ∃ d s, d % 2 = 1 ∧ m = d * 2 ^ s := by
  obtain ⟨s, d, hd, hds⟩ := Nat.exists_eq_two_pow_mul_odd hm
  exact ⟨d, s, Nat.odd_iff.mp hd, hds.trans (mul_comm _ _)⟩

/-- Settles O52: any way to write n - 1 as an odd number times a power of two is the round's own. -/
theorem millerRabinRoundPassesNonWitnesses : Obligations.MillerRabinRoundPassesNonWitnesses := by
  unfold Obligations.MillerRabinRoundPassesNonWitnesses
  intro n a hn hodd hlt
  constructor
  · intro hpass
    obtain ⟨d, s, hd, hds⟩ := exists_odd_mul_two_pow (m := n - 1) (by omega)
    exact ⟨d, s, hd, hds, (mrPasses_iff hn hodd hlt hd hds a).mp hpass⟩
  · rintro ⟨d, s, hd, hds, hbase⟩
    exact (mrPasses_iff hn hodd hlt hd hds a).mpr hbase

/-! ### Primes (R227) -/

/-- The square roots of 1 modulo a prime are 1 and -1. -/
theorem mod_eq_one_or_of_sq_mod_eq_one {p : Nat} (hp : p.Prime) {y : Nat} (h : y ^ 2 % p = 1) :
    y % p = 1 ∨ y % p = p - 1 := by
  have : Fact p.Prime := ⟨hp⟩
  have hone : 1 % p = 1 := Nat.mod_eq_of_lt hp.one_lt
  have hsq : (y : ZMod p) ^ 2 = 1 := by
    have hcast : ((y ^ 2 : Nat) : ZMod p) = (1 : Nat) := (ZMod.natCast_eq_natCast_iff' _ _ _).mpr (h.trans hone.symm)
    exact_mod_cast hcast
  refine (sq_eq_one_iff.mp hsq).imp (fun hy => ?_) fun hy => ?_
  · rw [← hone]
    exact (ZMod.natCast_eq_natCast_iff' _ _ _).mp (by rw [hy, Nat.cast_one])
  · rw [← Nat.mod_eq_of_lt (Nat.sub_lt hp.pos one_pos)]
    exact (ZMod.natCast_eq_natCast_iff' _ _ _).mp (by rw [hy, Nat.cast_pred hp.pos, CharP.cast_eq_zero, zero_sub])

/-- Going down the squarings from a^(n-1), the last 1 stands after -1 or at a^d. -/
theorem nonWitness_of_pow_mod_eq_one {p : Nat} (hp : p.Prime) {a d s : Nat} (h : a ^ (d * 2 ^ s) % p = 1) :
    NonWitness p a d s := by
  induction s with
  | zero => exact .inl (by simpa using h)
  | succ s ih =>
    rw [pow_succ, ← mul_assoc, pow_mul] at h
    obtain hone | hminus := mod_eq_one_or_of_sq_mod_eq_one hp h
    · exact (ih hone).imp_right fun ⟨r, hr, hbase⟩ => ⟨r, hr.trans s.lt_succ_self, hbase⟩
    · exact .inr ⟨s, s.lt_succ_self, hminus⟩

/-- Fermat's little theorem on remainders. -/
theorem pow_sub_one_mod_prime {p : Nat} (hp : p.Prime) {a : Nat} (ha : ¬ p ∣ a) : a ^ (p - 1) % p = 1 := by
  have hmod := Nat.ModEq.pow_totient ((Nat.Prime.coprime_iff_not_dvd hp).mpr ha).symm
  rw [Nat.totient_prime hp] at hmod
  exact Eq.trans hmod (Nat.mod_eq_of_lt hp.one_lt)

end Sys2Proof.Machine

/-!
The primality pipeline (43_prime.md R215 to R222, R227): the verdicts reached with no draws, the rounds with their
draws in order, and the primes, which pass every round.
-/
namespace Sys2Proof.Machine

/-! ### The verdicts reached with no draws (R215 to R217) -/

/-- What is rejected before trial division (R215, R216). -/
abbrev EarlyReject (n : Nat) : Prop := n = 0 ∨ n = 1 ∨ (n % 2 = 0 ∧ n ≠ 2)

section
variable {table : List Nat} {n : Nat}

theorem quickVerdict_of_earlyReject (h : EarlyReject n) : quickVerdict table n = some false := by
  by_cases h0 : n = 0 ∨ (n % 2 = 0 ∧ n ≠ 2)
  · exact if_pos h0
  · rw [quickVerdict, if_neg h0, if_pos (by tauto)]

theorem quickVerdict_of_not_earlyReject (h : ¬ EarlyReject n) :
    quickVerdict table n =
      if n ∈ table then some true else if table.any (fun p => n % p == 0) then some false else none := by
  rw [quickVerdict, if_neg (by tauto), if_neg (by tauto)]

theorem quickVerdict_of_mem (h : ¬ EarlyReject n) (hmem : n ∈ table) : quickVerdict table n = some true := by
  rw [quickVerdict_of_not_earlyReject h, if_pos hmem]

theorem any_divides_iff : table.any (fun p => n % p == 0) = true ↔ ∃ p ∈ table, p ∣ n := by
  simp [Nat.dvd_iff_mod_eq_zero]

/-- A multiple of an entry that is none is rejected, in trial division or before. -/
theorem quickVerdict_of_dvd (hmem : n ∉ table) (hdvd : ∃ p ∈ table, p ∣ n) : quickVerdict table n = some false := by
  by_cases h : EarlyReject n
  · exact quickVerdict_of_earlyReject h
  · rw [quickVerdict_of_not_earlyReject h, if_neg hmem, if_pos (any_divides_iff.mpr hdvd)]

theorem quickVerdict_eq_none (h : ¬ EarlyReject n) (hmem : n ∉ table) (hdvd : ∀ p ∈ table, ¬ p ∣ n) :
    quickVerdict table n = none := by
  have hany : ¬ ∃ p ∈ table, p ∣ n := fun ⟨p, hp, hpn⟩ => hdvd p hp hpn
  rw [quickVerdict_of_not_earlyReject h, if_neg hmem, if_neg (any_divides_iff.not.mpr hany)]

end

section
variable {c : Config} {n : Cand} {v : Bool}

theorem isPrime_of_quickVerdict (h : quickVerdict (smallPrimes c) n.toNat = some v) (st : RngState) :
    isPrime c n st = (v, st) := by rw [isPrime, h]

theorem isPrime_of_no_quickVerdict (h : quickVerdict (smallPrimes c) n.toNat = none) (st : RngState) :
    isPrime c n st = drawnVerdict c n st := by rw [isPrime, h]

theorem toNat_eq_ofNat_iff {k : Nat} (hk : k < 2 ^ 64) : n.toNat = k ↔ n = BitVec.ofNat 64 k := by
  rw [← BitVec.toNat_inj, BitVec.toNat_ofNat, Nat.mod_eq_of_lt hk]

theorem earlyReject_toNat_iff : EarlyReject n.toNat ↔ n = 0 ∨ n = 1 ∨ (n.toNat % 2 = 0 ∧ n ≠ 2) := by
  rw [EarlyReject, Ne, toNat_eq_ofNat_iff (by decide), toNat_eq_ofNat_iff (by decide), toNat_eq_ofNat_iff (by decide)]
  rfl

/-- The first primes stand in every table (R217). -/
theorem first_primes_mem_smallPrimes {p : Nat} (hp : p ∈ [2, 3, 5, 7]) : p ∈ smallPrimes c :=
  mem_smallPrimes.mpr (.inl hp)

/-- A multiple of an entry other than the entry itself is rejected: it is no prime, so it is no entry (R217). -/
theorem isPrime_of_entry_dvd {p : Nat} (hp : p ∈ smallPrimes c) (hdvd : p ∣ n.toNat) (hne : n.toNat ≠ p)
    (st : RngState) : isPrime c n st = (false, st) := by
  refine isPrime_of_quickVerdict (quickVerdict_of_dvd (fun hmem => hne ?_) ⟨p, hp, hdvd⟩) st
  exact ((Nat.prime_dvd_prime_iff_eq (prime_of_mem_smallPrimes hp).1 (prime_of_mem_smallPrimes hmem).1).mp hdvd).symm

end

/-- What trial division leaves is odd and at least 11. -/
theorem odd_and_ge_of_no_entry_dvd {c : Config} {n : Nat} (h : ¬ EarlyReject n) (hdvd : ∀ p ∈ smallPrimes c, ¬ p ∣ n) :
    n % 2 = 1 ∧ 11 ≤ n := by
  have h2 := hdvd 2 (first_primes_mem_smallPrimes (by decide))
  have h3 := hdvd 3 (first_primes_mem_smallPrimes (by decide))
  have h5 := hdvd 5 (first_primes_mem_smallPrimes (by decide))
  have h7 := hdvd 7 (first_primes_mem_smallPrimes (by decide))
  have h1 : n ≠ 1 := fun h1 => h (.inr (.inl h1))
  refine ⟨by omega, le_of_not_gt fun hlt => ?_⟩
  interval_cases n <;> omega

/-- Settles O49: they are rejected before trial division. -/
theorem quickRejectsDrawNothing : Obligations.QuickRejectsDrawNothing := by
  unfold Obligations.QuickRejectsDrawNothing
  exact fun c n st h => isPrime_of_quickVerdict (quickVerdict_of_earlyReject (earlyReject_toNat_iff.mpr h)) st

/-- Settles O50, with one law of the quick verdict for each clause. -/
theorem trialDivisionDrawsNothing : Obligations.TrialDivisionDrawsNothing := by
  unfold Obligations.TrialDivisionDrawsNothing
  intro c n st h0 h1 h2
  have hgo : ¬ EarlyReject n.toNat := by
    rw [earlyReject_toNat_iff]
    rintro (h | h | ⟨heven, hne⟩)
    · exact h0 h
    · exact h1 h
    · exact h2.elim (by omega) hne
  refine ⟨fun hmem => ?_, fun hmem hdvd => ?_, fun hmem hdvd => ?_⟩
  · exact isPrime_of_quickVerdict (quickVerdict_of_mem hgo hmem) st
  · exact isPrime_of_quickVerdict (quickVerdict_of_dvd hmem hdvd) st
  · obtain ⟨hodd, hge⟩ := odd_and_ge_of_no_entry_dvd hgo hdvd
    exact ⟨hodd, hge, isPrime_of_no_quickVerdict (quickVerdict_eq_none hgo hmem hdvd) st⟩

/-! ### Rounds and their draws (R218, R220, R222) -/

/-- The stream after k draws of a base. -/
def streamAfter (c : Config) (n : Cand) (st : RngState) (k : Nat) : RngState :=
  (fun st' => (rngRange c st' 2 (n - 2)).2)^[k] st

/-- The k-th base drawn. -/
def drawnBase (c : Config) (n : Cand) (st : RngState) (k : Nat) : Nat :=
  (rngRange c (streamAfter c n st k) 2 (n - 2)).1.toNat

section
variable {c : Config} {n : Cand}

theorem streamAfter_add (st : RngState) (j k : Nat) :
    streamAfter c n (streamAfter c n st j) k = streamAfter c n st (j + k) := by
  rw [streamAfter, streamAfter, ← Function.iterate_add_apply, Nat.add_comm k j, streamAfter]

theorem drawnBase_add (st : RngState) (j k : Nat) :
    drawnBase c n (streamAfter c n st j) k = drawnBase c n st (j + k) := by
  rw [drawnBase, streamAfter_add, drawnBase]

variable {passes : Nat → Bool} {k : Nat} {st : RngState}

theorem testRounds_succ :
    testRounds c n passes (k + 1) st =
      if passes (drawnBase c n st 0) then testRounds c n passes k (streamAfter c n st 1)
      else (false, streamAfter c n st 1) := rfl

theorem testRounds_of_all_pass (h : ∀ i < k, passes (drawnBase c n st i) = true) :
    testRounds c n passes k st = (true, streamAfter c n st k) := by
  induction k generalizing st with
  | zero => rfl
  | succ k ih =>
    rw [testRounds_succ, if_pos (h 0 k.succ_pos), ih, streamAfter_add, Nat.add_comm 1 k]
    intro i hi
    rw [drawnBase_add]
    exact h _ (by omega)

theorem testRounds_of_first_failure {j : Nat} (hj : j < k) (hpass : ∀ i < j, passes (drawnBase c n st i) = true)
    (hfail : ¬ passes (drawnBase c n st j) = true) :
    testRounds c n passes k st = (false, streamAfter c n st (j + 1)) := by
  induction k generalizing st j with
  | zero => exact absurd hj j.not_lt_zero
  | succ k ih =>
    rw [testRounds_succ]
    cases j with
    | zero => rw [if_neg hfail]
    | succ j =>
      rw [if_pos (hpass 0 j.succ_pos), ih (j := j) (by omega), streamAfter_add, Nat.add_comm 1 (j + 1)]
      · intro i hi
        rw [drawnBase_add]
        exact hpass _ (by omega)
      · rwa [drawnBase_add, Nat.add_comm 1 j]

end

/-- What base number k has to pass: the Fermat test up to 15, then a Miller–Rabin round (R218, R220). -/
def basePasses (n k a : Nat) : Prop := if k < 16 then a ^ (n - 1) % n = 1 else mrPasses n a = true

section
variable {c : Config} {n : Cand} {st : RngState}

theorem basePasses_fermat {k : Nat} (hk : k < 16) (a : Nat) :
    basePasses n.toNat k a ↔ fermatPasses n.toNat a = true := by
  rw [basePasses, if_pos hk, fermatPasses_iff n.isLt.le]

theorem basePasses_millerRabin (k a : Nat) : basePasses n.toNat (16 + k) a ↔ mrPasses n.toNat a = true := by
  rw [basePasses, if_neg (by omega)]

theorem fermatRounds_pass (h : ∀ k < 16, basePasses n.toNat k (drawnBase c n st k)) :
    testRounds c n (fermatPasses n.toNat) fermatRounds st = (true, streamAfter c n st 16) :=
  testRounds_of_all_pass fun k hk => (basePasses_fermat hk _).mp (h k hk)

/-- Once the Fermat test has passed, the verdict is that of the Miller–Rabin rounds, on the stream it left. -/
theorem drawnVerdict_of_fermat (hn : n ≠ 2) (h : ∀ k < 16, basePasses n.toNat k (drawnBase c n st k)) :
    drawnVerdict c n st = testRounds c n (mrPasses n.toNat) mrRounds (streamAfter c n st 16) := by
  simp only [drawnVerdict, fermatRounds_pass h, if_true, if_neg hn]

theorem drawnVerdict_of_all_pass (hn : n ≠ 2) (h : ∀ k < 32, basePasses n.toNat k (drawnBase c n st k)) :
    drawnVerdict c n st = (true, streamAfter c n st 32) := by
  rw [drawnVerdict_of_fermat hn fun k hk => h k (by omega), testRounds_of_all_pass, streamAfter_add]
  · rfl
  · intro k (hk : k < 16)
    rw [drawnBase_add]
    exact (basePasses_millerRabin k _).mp (h _ (by omega))

theorem drawnVerdict_of_first_failure (hn : n ≠ 2) {j : Nat} (hj : j < 32)
    (hpass : ∀ k < j, basePasses n.toNat k (drawnBase c n st k)) (hfail : ¬ basePasses n.toNat j (drawnBase c n st j)) :
    drawnVerdict c n st = (false, streamAfter c n st (j + 1)) := by
  by_cases hfermat : j < 16
  · have hrounds : testRounds c n (fermatPasses n.toNat) fermatRounds st = (false, streamAfter c n st (j + 1)) :=
      testRounds_of_first_failure hfermat (fun k hk => (basePasses_fermat (by omega) _).mp (hpass k hk))
        ((basePasses_fermat hfermat _).not.mp hfail)
    simp only [drawnVerdict, hrounds, Bool.false_eq_true, if_false]
  · obtain ⟨i, rfl⟩ := Nat.exists_eq_add_of_le (Nat.le_of_not_lt hfermat)
    rw [drawnVerdict_of_fermat hn fun k hk => hpass k (by omega), testRounds_of_first_failure (j := i),
      streamAfter_add, Nat.add_assoc]
    · show i < 16
      omega
    · intro k hk
      rw [drawnBase_add]
      exact (basePasses_millerRabin k _).mp (hpass _ (by omega))
    · rw [drawnBase_add]
      exact (basePasses_millerRabin i _).not.mp hfail

end

/-- Settles O51, from the two laws of the drawn verdict. -/
theorem drawnStagesStopAtFirstFailure : Obligations.DrawnStagesStopAtFirstFailure := by
  unfold Obligations.DrawnStagesStopAtFirstFailure
  intro c n st hn
  exact ⟨fun _ => drawnVerdict_of_first_failure hn, drawnVerdict_of_all_pass hn⟩

/-! ### Primes are accepted (R227) -/

/-- A prime passes every round with every base it does not divide. -/
theorem basePasses_of_prime {p : Nat} (hp : p.Prime) (h3 : 3 ≤ p) (hlt : p < 2 ^ 64) {a : Nat} (ha : ¬ p ∣ a)
    (k : Nat) : basePasses p k a := by
  have hfermat := pow_sub_one_mod_prime hp ha
  unfold basePasses
  split
  · exact hfermat
  · have hodd : p % 2 = 1 := hp.eq_two_or_odd.resolve_left (by omega)
    obtain ⟨d, s, hd, hds⟩ := exists_odd_mul_two_pow (m := p - 1) (by omega)
    rw [hds] at hfermat
    exact (mrPasses_iff h3 hodd hlt hd hds a).mpr (nonWitness_of_pow_mod_eq_one hp hfermat)

/-- Every drawn base lies in [2, n - 2], so n does not divide it (R211, R218). -/
theorem not_dvd_drawnBase (c : Config) {n : Cand} (hn : 4 ≤ n.toNat) (st : RngState) (k : Nat) :
    ¬ n.toNat ∣ drawnBase c n st k := by
  have hsub : (n - 2).toNat = n.toNat - 2 := by
    have := n.isLt
    bv_omega
  obtain ⟨hlo, hhi⟩ := rngRange_mem_range c (streamAfter c n st k) (lo := 2) (hi := n - 2) (by bv_omega)
  have hlo : 2 ≤ drawnBase c n st k := BitVec.le_def.mp hlo
  have hhi : drawnBase c n st k ≤ n.toNat - 2 := hsub ▸ BitVec.le_def.mp hhi
  exact Nat.not_dvd_of_pos_of_lt (by omega) (by omega)

theorem isPrime_of_prime (c : Config) {n : Cand} (hp : n.toNat.Prime) (st : RngState) : (isPrime c n st).1 = true := by
  have hgo : ¬ EarlyReject n.toNat := by
    have := hp.two_le
    have := hp.eq_two_or_odd
    omega
  by_cases hmem : n.toNat ∈ smallPrimes c
  · rw [isPrime_of_quickVerdict (quickVerdict_of_mem hgo hmem)]
  · have hdvd : ∀ p ∈ smallPrimes c, ¬ p ∣ n.toNat := fun p hentry hpn =>
      hmem ((Nat.prime_dvd_prime_iff_eq (prime_of_mem_smallPrimes hentry).1 hp).mp hpn ▸ hentry)
    obtain ⟨-, hge⟩ := odd_and_ge_of_no_entry_dvd hgo hdvd
    have hn2 : n ≠ 2 := by
      rintro rfl
      exact absurd hge (by decide)
    rw [isPrime_of_no_quickVerdict (quickVerdict_eq_none hgo hmem hdvd), drawnVerdict_of_all_pass hn2]
    exact fun k _ => basePasses_of_prime hp (by omega) n.isLt (not_dvd_drawnBase c (by omega) st k) k

/-- Settles O53: a prime is an entry or divided by none, and then passes every round. -/
theorem primesAreAlwaysAccepted : Obligations.PrimesAreAlwaysAccepted := by
  unfold Obligations.PrimesAreAlwaysAccepted
  exact fun c _ st hp => isPrime_of_prime c hp st

end Sys2Proof.Machine

/-!
The commands of the prime unit (43_prime.md R212, R213, R223 to R226): what each leaves, and the engine turns of
PRIME_GEN against the loop of `new_prime` as R224 writes it.
-/
namespace Sys2Proof.Machine

/-! ### RNG_SEED and RNG_ENTROPY (R212, R213) -/

/-- Settles O54: the word is the command's encoding, and the command is the stated update. -/
theorem rngSeedReplacesStream : Obligations.RngSeedReplacesStream := by
  unfold Obligations.RngSeedReplacesStream
  exact ⟨decode_encode .rngSeed, exec_eq .rngSeed⟩

/-- Settles O55: the word is the command's encoding, and HAS_ENTROPY decides between the two completions. -/
theorem rngEntropySeedsFromDraw : Obligations.RngEntropySeedsFromDraw := by
  unfold Obligations.RngEntropySeedsFromDraw
  exact ⟨decode_encode .rngEntropy, exec_eq .rngEntropy⟩

/-! ### PRIME_TEST (R223) -/

section
variable {c : Config} {s : State} {st : RngState}

theorem primeTest_of_unseeded (h : s.prng = none) : primeTest c s = complete .notSeeded s := by rw [primeTest, h]

theorem primeTest_of_seeded (h : s.prng = some st) :
    primeTest c s =
      complete .ok { s with prng := some (isPrime c s.cand st).2, result := flagBit (isPrime c s.cand st).1 } := by
  rw [primeTest, h]

end

/-- Settles O56, from the command's two equations. -/
theorem primeTestWritesVerdict : Obligations.PrimeTestWritesVerdict := by
  unfold Obligations.PrimeTestWritesVerdict
  refine ⟨decode_encode .primeTest, fun s => ⟨fun hst => ?_, fun st hst => ?_⟩⟩
  · rw [exec_eq, commandState, primeTest_of_unseeded hst]
    rfl
  · rw [exec_eq, commandState, primeTest_of_seeded hst]
    rfl

/-- Settles O57: primes pass for every stream, and the rejected candidates draw nothing from it. -/
theorem primeTestVerdictsForEveryStream : Obligations.PrimeTestVerdictsForEveryStream := by
  unfold Obligations.PrimeTestVerdictsForEveryStream
  intro s st hst
  refine ⟨_, exec_eq .primeTest s, ?_⟩
  rw [commandState, primeTest_of_seeded hst]
  refine ⟨rfl, fun hp => congrArg flagBit (isPrime_of_prime config hp st), fun h => ?_⟩
  have hreject : isPrime config s.cand st = (false, st) := by
    obtain h0 | h1 | ⟨p, hp, hdvd, hne⟩ := h
    · exact quickRejectsDrawNothing config s.cand st (.inl h0)
    · exact quickRejectsDrawNothing config s.cand st (.inr (.inl h1))
    · exact isPrime_of_entry_dvd (first_primes_mem_smallPrimes hp) hdvd hne st
  exact congrArg (flagBit ·.1) hreject

/-! ### One turn of PRIME_GEN (R224, R225; log 5) -/

theorem capReached_iff {c : Config} {attempts : Nat} :
    capReached c attempts = true ↔ 0 < c.primeMaxAttempts ∧ attempts = c.primeMaxAttempts := by
  rw [capReached, Bool.and_eq_true, decide_eq_true_iff, beq_iff_eq]

section
variable {c : Config} {s : State} {st : RngState}

theorem primeGen_of_unseeded (h : s.prng = none) : primeGen c s = complete .notSeeded s := by rw [primeGen, h]

theorem primeGen_of_seeded (h : s.prng = some st) : primeGen c s = searchTurn c (searchPoint s st) s := by
  rw [primeGen, h]

end

/-- Settles O58, from the command's two equations and the branches of a turn. -/
theorem primeGenTurn : Obligations.PrimeGenTurn := by
  unfold Obligations.PrimeGenTurn
  refine ⟨decode_encode .primeGen, fun s => ⟨fun hst => ?_, fun st hst => ?_⟩⟩
  · rw [exec_eq, commandState, primeGen_of_unseeded hst]
    rfl
  · rw [exec_eq, commandState, primeGen_of_seeded hst, searchTurn]
    simp only [capReached_iff]
    rfl

/-! ### The turns of PRIME_GEN compute `new_prime` (R224 to R226) -/

/-- What R225 writes when the loop returns. -/
def newPrimeDone (s : State) : Option Cand → RngState → State
  | some n, st => complete .ok { s with prng := some st, cand := n, result := 1 }
  | none, st => complete .attempts { s with prng := some st, result := 0 }

/-- A turn ends the command where the loop of R224 returns, and else stands where the loop stands. -/
theorem searchTurn_newPrimeWithin (c : Config) (p : Search) (s : State) (fuel : Nat) :
    (∃ r st, newPrimeWithin c (fuel + 1) p.attempts p.stream = some (r, st) ∧
        searchTurn c p s = newPrimeDone s r st) ∨
      ∃ p', newPrimeWithin c (fuel + 1) p.attempts p.stream = newPrimeWithin c fuel p'.attempts p'.stream ∧
        searchTurn c p s = { s with search := some p' } := by
  obtain ⟨hcap, ht⟩ | ⟨hcap, n, st, st', hdraw, ⟨hv, ht⟩ | ⟨hv, ht⟩⟩ := searchTurn_cases c p s
  · exact .inl ⟨none, p.stream, by simp [newPrimeWithin, hcap], ht⟩
  · exact .inl ⟨some n, st', by simp [newPrimeWithin, hcap, hdraw, hv], ht⟩
  · exact .inr ⟨⟨st', p.attempts + 1⟩, by simp [newPrimeWithin, hcap, hdraw, hv], ht⟩

theorem engineTurns_primeGen {s : State} {st : RngState} (hp : s.pending = some (encode .primeGen))
    (hst : s.prng = some st) (k : Nat) :
    engineTurns (k + 1) s = engineTurns k (searchTurn config (searchPoint s st) s) := by
  rw [engineTurns, engineActs_eq, engineTurn_command hp (decode_encode .primeGen), commandState, primeGen_of_seeded hst]

theorem engineTurns_of_newPrime_returns {k : Nat} {s : State} {st st' : RngState} {r : Option Cand}
    (hp : s.pending = some (encode .primeGen)) (hst : s.prng = some st)
    (h : newPrimeWithin config k (searchPoint s st).attempts (searchPoint s st).stream = some (r, st')) :
    ∃ j ≤ k, engineTurns j s = .next (newPrimeDone s r st') := by
  induction k generalizing s with
  | zero => exact absurd h nofun
  | succ k ih =>
    obtain ⟨r₁, st₁, hloop, ht⟩ | ⟨p, hloop, ht⟩ := searchTurn_newPrimeWithin config (searchPoint s st) s k
    · obtain ⟨rfl, rfl⟩ : r₁ = r ∧ st₁ = st' := by simpa [hloop] using h
      exact ⟨1, by omega, by rw [engineTurns_primeGen hp hst, ht]; rfl⟩
    · obtain ⟨j, hj, hturns⟩ := ih (s := { s with search := some p }) hp hst (hloop.symm.trans h)
      refine ⟨j + 1, by omega, ?_⟩
      rw [engineTurns_primeGen hp hst, ht, hturns]
      cases r <;> rfl

theorem engineTurns_of_newPrime_goes_on {k : Nat} {s : State} {st : RngState}
    (hp : s.pending = some (encode .primeGen)) (hst : s.prng = some st)
    (h : newPrimeWithin config k (searchPoint s st).attempts (searchPoint s st).stream = none) :
    ∃ p, engineTurns k s = .next { s with search := p } := by
  induction k generalizing s with
  | zero => exact ⟨s.search, rfl⟩
  | succ k ih =>
    obtain ⟨r, st', hloop, -⟩ | ⟨p, hloop, ht⟩ := searchTurn_newPrimeWithin config (searchPoint s st) s k
    · exact absurd (hloop.symm.trans h) nofun
    · obtain ⟨p', hturns⟩ := ih (s := { s with search := some p }) hp hst (hloop.symm.trans h)
      exact ⟨p', by rw [engineTurns_primeGen hp hst, ht, hturns]⟩

/-- Settles O59: the loop starts where `new_prime` starts, and each turn is one turn of it. -/
theorem primeGenComputesNewPrime : Obligations.PrimeGenComputesNewPrime := by
  unfold Obligations.PrimeGenComputesNewPrime
  intro s st k hp hst hsearch
  have hstart : searchPoint s st = ⟨st, 0⟩ := by rw [searchPoint, hsearch]; rfl
  split
  next h =>
    obtain ⟨p, hturns⟩ := engineTurns_of_newPrime_goes_on hp hst (by rwa [hstart])
    exact ⟨_, hturns, rfl⟩
  next r st' h =>
    obtain ⟨j, hj, hturns⟩ := engineTurns_of_newPrime_returns hp hst (by rwa [hstart])
    refine ⟨j, hj, hturns.trans ?_⟩
    cases r <;> rfl

end Sys2Proof.Machine

/-!
What stops a step (60_exceptions.md R254, R256): nothing but a host access that is not admitted. Errors of a command are
recorded and stop nothing.
-/
namespace Sys2Proof.Machine

theorem exists_engineTurn_next (s : State) : ∃ t, engineTurn s = .next t := by
  obtain ⟨-, he⟩ | ⟨w, i, -, -, he⟩ | ⟨w, r, -, -, he⟩ := engineTurn_cases s <;> exact ⟨_, he⟩

/-- An access with BUS_ERROR in the other branch answers exactly when its test holds. -/
theorem exists_next_iff_of_fault_unless (ok : Bool) (t : State) (f : Fault) :
    (∃ t', (if ok then .next t else .fault f : Host.Outcome State Fault Refusal) = .next t') ↔ ok = true := by
  split
  next h => exact iff_of_true ⟨t, rfl⟩ h
  next h => exact iff_of_false nofun h

/-- An event is performed exactly when it is no inadmissible access. -/
theorem exists_perform_next_iff (e : Event) (s : State) : (∃ t, perform e s = .next t) ↔ safeEvent e = true := by
  cases e with
  | read width off => exact exists_next_iff_of_fault_unless _ (busRead config off s) _
  | write width off v => exact exists_next_iff_of_fault_unless _ (busWrite config off v s) _
  | reset => exact iff_of_true ⟨_, rfl⟩ rfl
  | engine => exact iff_of_true (exists_engineTurn_next s) rfl
  | wait => exact iff_of_true ⟨_, hostWait_eq config s⟩ rfl

/-- Settles O16: the step is the engine's turn, which always answers, or the first event of the agenda. -/
theorem onlyBusErrorsStop : Obligations.OnlyBusErrorsStop := by
  unfold Obligations.OnlyBusErrorsStop
  intro s
  cases ha : s.agenda with
  | nil =>
    rw [step_nil ha]
    exact iff_of_true nofun (exists_engineTurn_next s)
  | cons e rest =>
    rw [step_cons ha, exists_perform_next_iff]
    simp

end Sys2Proof.Machine

/-!
The marker byte FRAME[0] in ENV_DECRYPT (60_exceptions.md R258, 42_envelope.md R176): it is the first byte of the
plaintext, and of what is read there only a checksum that covers it depends on it.
-/
namespace Sys2Proof.Machine

/-! ### What the rest of a plaintext after its marker fixes -/

section

variable {env env' : List Byte} (h : env'.drop 1 = env.drop 1)

include h

theorem envByte_of_drop_one {i : Nat} (hi : 1 ≤ i) : envByte env' i = envByte env i := by
  have hrest := congrArg (·.getD (i - 1) 0) h
  simpa [envByte, List.getD_eq_getElem?_getD, Nat.sub_add_cancel hi] using hrest

theorem envBytes_of_drop_one {lo : Nat} (hlo : 1 ≤ lo) (hi : Nat) : envBytes env' lo hi = envBytes env lo hi :=
  List.map_congr_left fun _ _ => envByte_of_drop_one h (Nat.le_add_right_of_le hlo)

theorem envLength_of_drop_one : envLength env' = envLength env := by
  rw [envLength, envByte_of_drop_one h le_rfl, envLength]

theorem envChecksumAt_of_drop_one : envChecksumAt env' = envChecksumAt env := by
  rw [envChecksumAt, envLength_of_drop_one h, envChecksumAt]

theorem envCount_of_drop_one : envCount env' = envCount env := by
  simp (disch := decide) only [envCount, envByte_of_drop_one h]

theorem envData_of_drop_one : envData env' = envData env := by
  rw [envData, envLength_of_drop_one h, envBytes_of_drop_one h (by decide), envData]

theorem envStored_of_drop_one : envStored env' = envStored env := by
  have hat : 1 ≤ envChecksumAt env := by rw [envChecksumAt]; omega
  rw [envStored, envChecksumAt_of_drop_one h, envByte_of_drop_one h hat,
    envByte_of_drop_one h (Nat.le_add_right_of_le hat), envStored]

/-- A checksum that does not cover the marker does not depend on it (R165). -/
theorem envCalc_of_drop_one {c : Config} (hstart : c.ckEnvStart.val = 1) : envCalc c env' = envCalc c env := by
  rw [envCalc, envChecksumAt_of_drop_one h, envBytes_of_drop_one h hstart.ge, envCalc]

/-- FRAME_LEN is recorded by the length of the frame and the length field alone (R177). -/
theorem decryptCode_bits_eq_frameLen_of_drop_one (c : Config) (f : Nat) :
    (decryptCode c f env').bits = 3 ↔ (decryptCode c f env).bits = 3 := by
  have hiff : ∀ e, (decryptCode c f e).bits = 3 ↔ f < 17 ∨ 512 < f ∨ (f - 1) % 16 ≠ 0 ∨
      7 + envLength e + packingLen (envLength e) ≠ 16 * frameBlocks f := by
    intro e
    rw [decryptCode_bits]
    split
    next hlen => exact iff_of_true rfl hlen
    next hlen => exact iff_of_false (by split <;> decide) hlen
  rw [hiff, hiff, envLength_of_drop_one h]

theorem decryptCode_of_drop_one {c : Config} (hstart : c.ckEnvStart.val = 1) (f : Nat) :
    decryptCode c f env' = decryptCode c f env := by
  rw [decryptCode, badLength, envLength_of_drop_one h, envCalc_of_drop_one h hstart, envStored_of_drop_one h,
    decryptCode, badLength]

end

/-! ### Two frames that differ in the marker only -/

@[simp] theorem joinHalves_low (hi lo : Half) : (joinHalves hi lo).extractLsb' 0 16 = lo :=
  BitVec.extractLsb'_append_eq_right

theorem openFrame_drop_one (s : State) :
    (openFrame s).drop 1 = ecbDec s.keyBytes (frameBlocks s.flen.toNat)
      (s.mem.bytes (frameBase + 1) (16 * frameBlocks s.flen.toNat)) :=
  List.drop_left' (Memory.bytes_length _ _ _)

theorem openFrame_drop_one_of_marker {s : State} {m : Memory} (hm : ∀ a, a ≠ 0x200 → m.read a = s.mem.read a) :
    (openFrame { s with mem := m }).drop 1 = (openFrame s).drop 1 := by
  have hkey : m.bytes keyBase 16 = s.mem.bytes keyBase 16 :=
    Memory.bytes_congr fun i hi => hm _ (by rw [keyBase]; omega)
  have hframe : ∀ n, m.bytes (frameBase + 1) n = s.mem.bytes (frameBase + 1) n :=
    fun n => Memory.bytes_congr fun i _ => hm _ (by rw [frameBase]; omega)
  rw [openFrame_drop_one, openFrame_drop_one, State.keyBytes, hkey, hframe, State.keyBytes]

/-- Settles O46: the two plaintexts agree after their first byte, which fixes every output but the recomputed
checksum and the comparison with it. -/
theorem envDecryptIgnoresMarker : Obligations.EnvDecryptIgnoresMarker := by
  unfold Obligations.EnvDecryptIgnoresMarker
  intro s s' hs hread
  obtain ⟨m, rfl⟩ : ∃ m, s' = { s with mem := m } := ⟨_, hs⟩
  have hopen := openFrame_drop_one_of_marker hread
  have hstored := envStored_of_drop_one hopen
  refine ⟨_, _, exec_eq .envDecrypt s, exec_eq .envDecrypt _, ?frame, fun a ha => ?mem, ?stored,
    decryptCode_bits_eq_frameLen_of_drop_one hopen config s.flen.toNat, fun hstart => ⟨?err, ?result⟩⟩ <;>
    simp only [commandState, envDecrypt, decryptWrites, complete]
  case frame => rw [envLength_of_drop_one hopen, envCount_of_drop_one hopen]
  case mem => rw [envData_of_drop_one hopen, Memory.read_writeBytes, Memory.read_writeBytes, hread a ha]
  case stored => rw [joinHalves_low, joinHalves_low, hstored]
  case err => rw [decryptCode_of_drop_one hopen hstart]
  case result => rw [envCalc_of_drop_one hopen hstart, hstored]

end Sys2Proof.Machine

/-!
Reset as an event (70_reset_and_hazards.md R280): what a reset step does to every field at once. The values of the reset
state are in `resetValues` (10_state.md R47).
-/
namespace Sys2Proof.Machine

/-- DONE and IE are both clear in the reset state (R46, R47). -/
@[simp] theorem resetEvent_irq (s : State) : (resetEvent s).irq = false := rfl

/-- Settles O5: a reset step answers `resetEvent s`, which is the reset state but for the agenda and the draw counts. -/
theorem resetEventRestoresResetState : Obligations.ResetEventRestoresResetState := by
  unfold Obligations.ResetEventRestoresResetState
  exact fun s => ⟨resetEvent s, platformResets_eq s, rfl, resetEvent_pending s, resetEvent_irq s⟩

end Sys2Proof.Machine
